-- ==== Sys2Proof/Word.lean ====
section
/-! DEFINITION. The word types of PT-BITACC (00_scope.md R6, R8). -/

namespace Sys2Proof

/-- One input bit, the operand of FEED (30_encoding.md R73). -/
abbrev Bit := BitVec 1

/-- A value of the state register `st` (10_state.md R20). -/
abbrev StWord := BitVec 9

/-- A completed byte (10_state.md R34). -/
abbrev Byte := BitVec 8

/-- The command word `cmd[1:0]` (30_encoding.md R70). -/
abbrev CmdWord := BitVec 2

/-- One cell of the transition table (30_encoding.md R77). -/
abbrev CellWord := BitVec 10

/-- An address of the transition table (30_encoding.md R78). -/
abbrev CellAddr := BitVec 10

end Sys2Proof
end

