-- ==== Sys2Proof/Syntax.lean ====
section
/-! DEFINITION. The commands of the block, one constructor per row of spec/opcode_table.json, and the assembler's
lines (30_encoding.md R72, R79, R80). -/

namespace Sys2Proof

/-- The commands (30_encoding.md R72). `FEED 0` and `FEED 1` are one instruction with an operand. -/
inductive Instr where
  /-- NOP, the idle cycle (41_accumulator_ops.md R131). -/
  | nop
  /-- RESET, empties the accumulator (41_accumulator_ops.md R132). -/
  | reset
  /-- FEED b, pushes one bit through the table (41_accumulator_ops.md R133). -/
  | feed (b : Bit)
deriving DecidableEq, Repr

/-- One line of an assembler program: a command (30_encoding.md R79) or a pseudo-instruction (R80). An operand is the
number that was written; WellFormed says which numbers are legal. -/
inductive AsmLine where
  /-- `NOP` -/
  | nop
  /-- `RESET` -/
  | reset
  /-- `FEED v`, legal for the digits 0 and 1 -/
  | feed (v : Nat)
  /-- `FEEDBYTE v`, `v` an 8-bit value -/
  | feedByte (v : Nat)
  /-- `PUTBYTE v`, `v` an 8-bit value -/
  | putByte (v : Nat)
  /-- `IDLE n` -/
  | idle (n : Nat)
deriving DecidableEq, Repr

end Sys2Proof
end

