-- ==== Sys2Proof/WellFormed.lean ====
section
/-! DEFINITION. Which commands, command-word numbers and assembler lines are legal. -/

namespace Sys2Proof

/-- Every command is legal: its operand is a single bit by its type and the format reserves nothing (30_encoding.md R73,
R74), so there is no command this check refuses. -/
def Instr.wellFormed : Instr → Bool
  | .nop => true
  | .reset => true
  | .feed _ => true

/-- A number is a command word if it fits the two wires of `cmd` (30_encoding.md R70). -/
def wordWellFormed (w : Nat) : Bool := decide (w < 4)

/-- Operand ranges of an assembler line (30_encoding.md R79, R80). -/
def AsmLine.wellFormed : AsmLine → Bool
  | .nop => true
  | .reset => true
  | .feed v => decide (v < 2)
  | .feedByte v => decide (v < 256)
  | .putByte v => decide (v < 256)
  | .idle _ => true

end Sys2Proof
end

