-- ==== Sys2Proof/Decode.lean ====
section
/-! DEFINITION. Decoding and encoding of command words (30_encoding.md R70 to R75). -/

namespace Sys2Proof

/-- Field `F = cmd[1]`: 1 for a FEED, 0 for a control command (30_encoding.md R71). -/
def fieldF (c : CmdWord) : Bit := c.extractLsb' 1 1

/-- Field `B = cmd[0]`: the bit to feed, or the choice between NOP and RESET (30_encoding.md R71, R73). -/
def fieldB (c : CmdWord) : Bit := c.extractLsb' 0 1

/-- Decoding is total: each of the four words is one command (30_encoding.md R72, R74). -/
def decode (c : CmdWord) : Instr :=
  if fieldF c = 1#1 then .feed (fieldB c)
  else if fieldB c = 0#1 then .nop
  else .reset

/-- The word of a command: `00`, `01`, `1b` (30_encoding.md R72). -/
def encode : Instr → CmdWord
  | .nop => 0b00#2
  | .reset => 0b01#2
  | .feed b => 0b1#1 ++ b

/-- Why a number is no command. -/
inductive DecodeError where
  /-- The number needs more than the two wires of `cmd` (30_encoding.md R70, R75). Raised by `decodeWord`; safe. -/
  | notACommandWord (w : Nat)
deriving DecidableEq, Repr

/-- The command a number stands for; a number that is not a 2-bit word is rejected by name (log entry 7). -/
def decodeWord (w : Nat) : Except DecodeError Instr :=
  if wordWellFormed w then .ok (decode (BitVec.ofNat 2 w)) else .error (.notACommandWord w)

/-- The command word given as the low `nbits` bits of `w`; every bit above `nbits` is 0. None if it is wider than `cmd`
(log entry 7). -/
def commandWordOf (nbits w : Nat) : Option CmdWord :=
  let v := w % 2 ^ nbits
  if wordWellFormed v then some (BitVec.ofNat 2 v) else none

/-- The command of a row of spec/opcode_table.json whose bits are `w`. Bit 0 of the table is `cmd[0]`. -/
def decodeTableWord (nbits w : Nat) : Option Instr :=
  (commandWordOf nbits w).map decode

end Sys2Proof
end

