-- ==== Sys2Proof/Config.lean ====
section
/-! DEFINITION. What the spec fixes for every block (00_scope.md R6) and the one value it leaves open at power-on. -/

namespace Sys2Proof

/-- Bits of a completed byte (00_scope.md R6, 92_eei_decisions.md D3). -/
def Config.accWidth : Nat := 8

/-- Number of start states (00_scope.md R6: states 0 and 1). -/
def Config.startStates : Nat := 2

/-- First terminal state (00_scope.md R6; 40_transition_table.md R104). -/
def Config.firstTerminal : Nat := 256

/-- Number of state encodings, the rows of the table (00_scope.md R6, 90_conflicts.md C1). -/
def Config.stateCount : Nat := 512

/-- FREE VALUE, log entry 2 (DESIGN CHOICE of form, value left open by 70_reset_and_hazards.md R181 and 92_eei_decisions.md
D10): what `st` holds after power first comes on, before any reset. The argument numbers the draw; each instance's
power-on has a number of its own. It has no body, so nothing can be proved of the value. Safe: every draw of R181 is
allowed. -/
opaque Config.powerOnSt : Nat → StWord

/-- FREE VALUE, log entry 2 (DESIGN CHOICE of form, value left open by 60_exceptions.md R175 and 92_eei_decisions.md D26):
what `st` holds after power is lost and comes on again, for a draw number and the value before the loss. Since it may
depend on that value, both are allowed: that `st` survives and that it does not. It has no body. Safe. -/
opaque Config.powerReturnSt : Nat → StWord → StWord

end Sys2Proof
end

