-- ==== Sys2Proof/Machine/State.lean ====
section
/-! DEFINITION. The state of one accumulator instance, the reasons a step can stop, and the state after reset
(10_state.md R20 to R39; 70_reset_and_hazards.md R180, R182). -/

namespace Sys2Proof.Machine

/-- The inputs of one clock cycle (10_state.md R32): the reset input and the command word. -/
structure CycleInput where
  /-- `rst`, active high. -/
  rst : Bool
  /-- `cmd[1:0]`. -/
  cmd : CmdWord
deriving DecidableEq, Repr

/-- One instance. The block's only register is `st` (10_state.md R20); the ready flag is `st[8]` (R28) and the table is
configuration (R38). `inputs` is the model's own field and no state of the block: what the caller presents in the
cycles still to come, the input list of R36 (DESIGN CHOICE, log entry 1). -/
structure State where
  /-- The 9-bit state register `st[8:0]`. -/
  st : StWord
  /-- The cycle inputs still to come, next cycle first. -/
  inputs : List CycleInput
deriving DecidableEq, Repr

/-- The two error conditions of 60_exceptions.md R160. Neither can arise on the hardware, so `exec` and `step` never
answer one. -/
inductive Fault where
  /-- Raised by the software call `feed(v)` with `v` other than 0 or 1 (R161). Safe. -/
  | invalidBit (v : Nat)
  /-- Raised by the software call `feed` when the unbounded state `s` is outside 0..511 (R162). Safe. -/
  | invalidState (s : Nat)
deriving DecidableEq, Repr

/-- Reasons the model gives no next state. -/
inductive Refusal where
  /-- Answered by an arm of `exec` without a meaning; no arm is. Safe. -/
  | notModelled (mnemonic : String)
  /-- Raised by `step` when no cycle input is left: a run ends after its last listed cycle (10_state.md R36, log
  entry 1). Safe: nothing is claimed of a cycle whose inputs are not given. -/
  | runEnded
  /-- Raised by `System.stepFrom`: a system has at least one instance (00_scope.md R6, log entry 5). Safe. -/
  | noInstances
  /-- Raised by `System.stepFrom`: the state does not hold `nInst` instances, the number the step relation is given
  (10_state.md R38, log entry 5). Safe. -/
  | wrongInstanceCount (nInst held : Nat)
  /-- Raised by `System.stepFrom`: instance `inst` has two masters, and a model refuses such a system (20_memory.md R64,
  log entry 5). Safe. -/
  | multipleMasters (inst : Nat)
deriving DecidableEq, Repr

/-- The machine right after reset: `st = 0` (70_reset_and_hazards.md R180, R182), and no cycle input presented yet. -/
def State.reset : State := { st := 0#9, inputs := [] }

end Sys2Proof.Machine
end

