-- ==== Sys2Proof/Machine/Flags.lean ====
section
/-! DEFINITION. The block's only flag (10_state.md R28). -/

namespace Sys2Proof.Machine

/-- The ready flag is bit 8 of the register (10_state.md R28, 40_transition_table.md R106). -/
def readyFlag (s : StWord) : Bool := s.getLsbD 8

/-- The completed byte held by a register value with the ready flag set: `st[7:0] = st - 256` (10_state.md R34). -/
def completedByte (s : StWord) : Byte := s.extractLsb' 0 8

end Sys2Proof.Machine
end

