-- ==== Sys2Proof/Machine/Outputs.lean ====
section
/-! DEFINITION. The output ports and the emitted byte of a cycle (10_state.md R33 to R37). -/

namespace Sys2Proof.Machine

/-- `ready_o` (10_state.md R33). -/
def readyO (s : State) : Bool := readyFlag s.st

/-- `byte_o`: the completed byte while `ready_o = 1`, and no value otherwise (10_state.md R34, 92_eei_decisions.md D9). -/
def byteO (s : State) : Option Byte := if readyO s then some (completedByte s.st) else none

/-- The output pair seen after an edge (10_state.md R35). -/
structure Outputs where
  /-- `ready_o` -/
  ready : Bool
  /-- `byte_o`, if it has a value -/
  byte : Option Byte
deriving DecidableEq, Repr

/-- The Moore outputs of a state (10_state.md R35). -/
def outputsOf (s : State) : Outputs := { ready := readyO s, byte := byteO s }

/-- The bit a cycle feeds: that of a FEED with `rst = 0` (10_state.md R36, 30_encoding.md R76). -/
def bitFed (c : CycleInput) : Option Bit :=
  if c.rst then none
  else match decode c.cmd with
    | .feed b => some b
    | .nop => none
    | .reset => none

/-- What the cycle `c` that ended in `t` appends to the emitted sequence: `byte_o` if `c` is a FEED with `rst = 0` and
`ready_o = 1` after the edge (10_state.md R36). -/
def emittedBy (c : CycleInput) (t : State) : Option Byte :=
  if (bitFed c).isSome then byteO t else none

end Sys2Proof.Machine
end

