-- ==== Sys2Proof/Machine/Operands.lean ====
section
/-! DEFINITION. The address FEED forms from the register and its operand, and the fields of a table cell
(30_encoding.md R77, R78). -/

namespace Sys2Proof.Machine

/-- A transition: the table cell as the pair `(ready, next)` (40_transition_table.md R100). -/
structure Cell where
  /-- The byte is complete after this transition. -/
  ready : Bool
  /-- The state `st` takes. -/
  next : StWord
deriving DecidableEq, Repr

/-- The address `{s[8:0], b}` of a cell (30_encoding.md R78). -/
def tableAddress (s : StWord) (b : Bit) : CellAddr := s ++ b

/-- The row of an address, its upper nine bits. -/
def addressState (a : CellAddr) : StWord := a.extractLsb' 1 9

/-- The column of an address, its lowest bit. -/
def addressBit (a : CellAddr) : Bit := a.extractLsb' 0 1

/-- `cell[9]` (30_encoding.md R77). -/
def cellReady (w : CellWord) : Bool := w.getLsbD 9

/-- `cell[8:0]` (30_encoding.md R77). -/
def cellNext (w : CellWord) : StWord := w.extractLsb' 0 9

/-- The cell word `{ready, next[8:0]}` (30_encoding.md R77). -/
def packCell (c : Cell) : CellWord := BitVec.ofBool c.ready ++ c.next

/-- A cell word split into its fields (40_transition_table.md R110). -/
def unpackCell (w : CellWord) : Cell := { ready := cellReady w, next := cellNext w }

end Sys2Proof.Machine
end

