-- ==== Sys2Proof/Machine/StateCode.lean ====
section
/-! DEFINITION. The coding of `(bitCount, buffer)` in a state and the three state classes
(10_state.md R22 to R24; 00_scope.md R11). -/

namespace Sys2Proof.Machine

/-- `isStart` (00_scope.md R11). -/
def isStart (s : StWord) : Bool := decide (s.toNat < Config.startStates)

/-- `isTerminal` (00_scope.md R11). -/
def isTerminal (s : StWord) : Bool := decide (Config.firstTerminal ≤ s.toNat)

/-- `isIntermediate` (00_scope.md R11). -/
def isIntermediate (s : StWord) : Bool :=
  decide (Config.startStates ≤ s.toNat) && decide (s.toNat < Config.firstTerminal)

/-- `bitCount` of the state with number `s` (10_state.md R22): the index of the highest set bit for 2..255. -/
def bitCountOf (s : Nat) : Nat :=
  if s < Config.startStates then 0
  else if s < Config.firstTerminal then s.log2
  else Config.accWidth

/-- `buffer` of the state with number `s` (10_state.md R22). -/
def bufferOf (s : Nat) : Nat :=
  if s < Config.startStates then 0
  else if s < Config.firstTerminal then s - 2 ^ s.log2
  else s - Config.firstTerminal

/-- `decode(s) = (bitCount, buffer)` (10_state.md R22). -/
def decodeState (s : StWord) : Nat × Nat := (bitCountOf s.toNat, bufferOf s.toNat)

/-- The legal pairs `(bitCount, buffer)` (10_state.md R23). -/
def legalPair (k v : Nat) : Bool :=
  (decide (k = 0) && decide (v = 0))
    || (decide (1 ≤ k) && decide (k ≤ Config.accWidth) && decide (v < 2 ^ k))

/-- The number `encode(bitCount, buffer)` of a legal pair (10_state.md R23): 0 for the empty accumulator, not its alias 1. -/
def stateNumber (k v : Nat) : Nat :=
  if k = 0 then 0
  else if k < Config.accWidth then 2 ^ k + v
  else Config.firstTerminal + v

/-- `encode(bitCount, buffer)` as a register value (10_state.md R23). -/
def encodeState (k v : Nat) : StWord := BitVec.ofNat 9 (stateNumber k v)

end Sys2Proof.Machine
end

