-- ==== Sys2Proof/Machine/Table.lean ====
section
/-! DEFINITION. The contents of the transition table and its lookup (40_transition_table.md R100 to R112). -/

namespace Sys2Proof.Machine

/-- A table contents: a cell word at every address. It is an argument of the step relation and no field of the state
(10_state.md R38). -/
abbrev Table := CellAddr → CellWord

/-- `T(s, b)` on naturals, exact and not yet narrowed, by the row rules: start (40_transition_table.md R101),
intermediate (R102), completing (R103), terminal (R104). -/
def tableEntry (s b : Nat) : Bool × Nat :=
  if s < Config.startStates then (false, 2 + b)
  else if s < Config.firstTerminal then
    let newBuffer := 2 * bufferOf s + b
    let newBitCount := bitCountOf s + 1
    if newBitCount < Config.accWidth then (false, 2 ^ newBitCount + newBuffer)
    else (true, Config.firstTerminal + newBuffer)
  else (true, s)

/-- `T(s, b)` narrowed to the 9-bit next state; R109 says no bit is lost. -/
def transition (s : StWord) (b : Bit) : Cell :=
  let e := tableEntry s.toNat b.toNat
  { ready := e.1, next := BitVec.ofNat 9 e.2 }

/-- The fixed contents: the cell of row `s`, column `b` at address `{s, b}` (20_memory.md R50, 30_encoding.md R78). -/
def transitionTable : Table := fun a => packCell (transition (addressState a) (addressBit a))

/-- The lookup of 40_transition_table.md R110 in a given table: read the cell at `{s, b}` and split it. -/
def tableReadFrom (T : Table) (s : StWord) (b : Bit) : Cell := unpackCell (T (tableAddress s b))

/-- `TableRead(s, b)` (00_scope.md R10, 40_transition_table.md R110). -/
def tableRead (s : StWord) (b : Bit) : Cell := tableReadFrom transitionTable s b

/-- The closed form of 40_transition_table.md R105, the logic a realisation may use in place of stored cells. -/
def closedFormNext (s b : Nat) : Nat :=
  if s = 0 then 2 + b else if s < Config.firstTerminal then 2 * s + b else s

/-- The closed form on bits: `next = {m[7:0], b}`, with `m = 1` for row 0 (40_transition_table.md R105). -/
def closedFormBits (s : StWord) (b : Bit) : StWord :=
  if s.getLsbD 8 then s
  else (if s = 0#9 then 1#8 else s.extractLsb' 0 8) ++ b

/-- A realisation that computes each cell by the closed form (40_transition_table.md R112). -/
def closedFormTable : Table := fun a =>
  let n := closedFormBits (addressState a) (addressBit a)
  packCell { ready := n.getLsbD 8, next := n }

/-- A realisation as a 2-column array: row `s` holds the cells for `b = 0` and `b = 1` (40_transition_table.md R112). -/
def tableOfColumns (rows : StWord → CellWord × CellWord) : Table := fun a =>
  if addressBit a = 0#1 then (rows (addressState a)).1 else (rows (addressState a)).2

/-- A table conforms if every cell is that of the row rules (40_transition_table.md R112). -/
def Table.conforms (T : Table) : Prop := ∀ s b, T (tableAddress s b) = packCell (transition s b)

/-- A realisation that stores no ready bit and outputs `next[8]` instead conforms if every stored `next` is that of
the row rules (40_transition_table.md R112). -/
def withoutReadyBit (nexts : CellAddr → StWord) : Table := fun a =>
  packCell { ready := (nexts a).getLsbD 8, next := nexts a }

end Sys2Proof.Machine
end

