-- ==== Sys2Proof/Machine/Ops.lean ====
section
/-! DEFINITION. The named operations on the state that the meanings and the step share. -/

namespace Sys2Proof.Machine

/-- `st <- v` (00_scope.md R9): the only write the block knows. -/
def State.setSt (s : State) (v : StWord) : State := { s with st := v }

/-- `st <- 0`, the effect shared by the RESET command (41_accumulator_ops.md R132) and the `rst` input
(70_reset_and_hazards.md R180). -/
def clearAccumulator (s : State) : State := s.setSt 0#9

/-- FEED with the table as an argument (41_accumulator_ops.md R133, 10_state.md R38). -/
def feedFrom (T : Table) (b : Bit) (s : State) : State := s.setSt (tableReadFrom T s.st b).next

/-- FEED over the block's own table (41_accumulator_ops.md R133). -/
def feedBit (b : Bit) (s : State) : State := feedFrom transitionTable b s

/-- The inputs sampled at the coming edge, and the state with the later cycles' inputs left (10_state.md R32, R36). -/
def sampleInputs (s : State) : Option (CycleInput × State) :=
  match s.inputs with
  | [] => none
  | c :: rest => some (c, { s with inputs := rest })

/-- `s` with the command word `c` on `cmd` and `rst = 0` in the coming cycle; the inputs of later cycles stay. -/
def presentCommand (c : CmdWord) (s : State) : State :=
  { s with inputs := { rst := false, cmd := c } :: s.inputs.tail }

/-- Power first comes on: `st` is the free draw number `k` (70_reset_and_hazards.md R181, log entry 2). -/
def State.powerOn (k : Nat) (inputs : List CycleInput) : State :=
  { st := Config.powerOnSt k, inputs := inputs }

/-- Power is lost and comes on again: `st` is unspecified until the next reset (60_exceptions.md R175). R175 leaves open
whether `st` survives; the model settles it neither way, for the free value is a function of the draw number `k` and of
the value before the loss (DESIGN CHOICE of form, log entry 2). Every loss of power of every instance has a number of
its own. It is an act of the outside world with no port, so `step` does not perform it. -/
def State.powerCycle (k : Nat) (s : State) : State := s.setSt (Config.powerReturnSt k s.st)

/-- One clock edge, given what a command does: `rst = 1` wins over any command (60_exceptions.md R169); otherwise the
command of the cycle is performed (41_accumulator_ops.md R130). With no cycle input left the run has ended
(10_state.md R36, log entry 1). -/
def edgeWith (run : Instr → State → Host.Outcome State Fault Refusal) (s : State) : Host.Outcome State Fault Refusal :=
  match sampleInputs s with
  | none => .refused .runEnded
  | some (c, s') => if c.rst then .next (clearAccumulator s') else run (decode c.cmd) s'

end Sys2Proof.Machine
end

