-- ==== Sys2Proof/Machine/Accumulator.lean ====
section
/-! DEFINITION. The meanings of the commands (41_accumulator_ops.md R131 to R133). -/

namespace Sys2Proof.Machine

/-- NOP: `st' <- st` (41_accumulator_ops.md R131). -/
def execNop (s : State) : Host.Outcome State Fault Refusal := .next s

/-- RESET: `st' <- 0`; no table cell is read (41_accumulator_ops.md R132, 90_conflicts.md C4). -/
def execReset (s : State) : Host.Outcome State Fault Refusal := .next (clearAccumulator s)

/-- FEED b: `(ready, next) = TableRead(st, b); st' <- next` (41_accumulator_ops.md R133). What R58 says of two FEEDs
from 128..255 gives way to R103 and R104 (log entry 4). -/
def execFeed (b : Bit) (s : State) : Host.Outcome State Fault Refusal := .next (feedBit b s)

/-- The commands with the table as an argument of the step relation (10_state.md R38). -/
def execFrom (T : Table) (i : Instr) (s : State) : Host.Outcome State Fault Refusal :=
  match i with
  | .nop => .next s
  | .reset => .next (clearAccumulator s)
  | .feed b => .next (feedFrom T b s)

/-- The step relation of one instance with the table as its argument (10_state.md R38): `rst` and `cmd` are sampled and
the command runs over `T`. -/
def stepFrom (T : Table) (s : State) : Host.Outcome State Fault Refusal := edgeWith (execFrom T) s

end Sys2Proof.Machine
end

