-- ==== Sys2Proof/Machine/Step.lean ====
section
/-! DEFINITION. One rising edge of `clk` (41_accumulator_ops.md R130) and the placing of the next command. -/

namespace Sys2Proof.Machine

/-- One clock edge of the block with its own table, `stepFrom transitionTable` (10_state.md R38): `rst` or the command
`exec` gives a meaning to. -/
def step (s : State) : Host.Outcome State Fault Refusal := edgeWith exec s

/-- `s` with the command of bits `w` on `cmd` in the coming cycle, `rst` low (log entries 1 and 7); a number wider than
`cmd` presents nothing. -/
def State.withFetchWord (s : State) (nbits w : Nat) : State :=
  match commandWordOf nbits w with
  | some c => presentCommand c s
  | none => s

end Sys2Proof.Machine
end

