-- ==== Sys2Proof/Machine/Pseudo.lean ====
section
/-! DEFINITION. The pseudo-instructions and the cycles a list of commands takes (30_encoding.md R80, R81). -/

namespace Sys2Proof.Machine

/-- `v[i]` as a bit (00_scope.md R8). -/
def bitAt (v : Byte) (i : Nat) : Bit := BitVec.ofBool (v.getLsbD i)

/-- The bits of a byte, most significant first (20_memory.md R51). -/
def bitsOfByte (v : Byte) : List Bit :=
  [bitAt v 7, bitAt v 6, bitAt v 5, bitAt v 4, bitAt v 3, bitAt v 2, bitAt v 1, bitAt v 0]

/-- `FEEDBYTE v`: `FEED v[7]`, ..., `FEED v[0]` (30_encoding.md R80). -/
def feedByte (v : Byte) : List Instr := (bitsOfByte v).map Instr.feed

/-- `PUTBYTE v`: `FEEDBYTE v`, then `RESET` (30_encoding.md R80). -/
def putByte (v : Byte) : List Instr := feedByte v ++ [Instr.reset]

/-- `IDLE n`: `n` NOPs (30_encoding.md R80). -/
def idle (n : Nat) : List Instr := List.replicate n Instr.nop

/-- The cycle that performs a command: its word on `cmd`, `rst = 0` (30_encoding.md R81, 41_accumulator_ops.md R134). -/
def cycleOf (i : Instr) : CycleInput := { rst := false, cmd := encode i }

/-- The cycles of a list of commands, one each, in order (20_memory.md R60). -/
def cyclesOf (is : List Instr) : List CycleInput := is.map cycleOf

end Sys2Proof.Machine
end

