-- ==== Sys2Proof/Machine/Assembler.lean ====
section
/-! DEFINITION. The assembler's text (30_encoding.md R79, R80) and the binary notation of a program (R81). Texts are
lists of characters. What R79 leaves open of the text's form is fixed by log entry 6. -/

namespace Sys2Proof.Machine

/-- Why a text is no program (30_encoding.md R79). All are safe: the text is rejected. -/
inductive AsmError where
  /-- The line is no command or pseudo-instruction with its operands. -/
  | unknownLine (tokens : List (List Char))
  /-- FEED has an operand other than the digit 0 or 1. -/
  | badBit (token : List Char)
  /-- The operand is no number. -/
  | badNumber (token : List Char)
  /-- The operand is out of its range. -/
  | outOfRange (line : AsmLine)
deriving DecidableEq, Repr

/-- The pieces of a list between the elements that satisfy `p`. -/
def pieces (p : Char → Bool) : List Char → List (List Char)
  | [] => [[]]
  | c :: cs =>
    if p c then [] :: pieces p cs
    else match pieces p cs with
      | [] => [[c]]
      | w :: ws => (c :: w) :: ws

/-- Spaces and tabs separate the words of a line. -/
def isBlank (c : Char) : Bool := c == ' ' || c == '\t'

/-- The words of a line. -/
def tokens (l : List Char) : List (List Char) := (pieces isBlank l).filter (fun w => !w.isEmpty)

/-- A line without its comment: `;` starts a comment (30_encoding.md R79). -/
def stripComment (l : List Char) : List Char := l.takeWhile (fun c => c != ';')

/-- The value of a digit in a base up to 16. -/
def digitValue (base : Nat) (c : Char) : Option Nat :=
  let n := c.toNat
  let d := if 48 ≤ n && n ≤ 57 then n - 48
    else if 65 ≤ n && n ≤ 70 then n - 55
    else if 97 ≤ n && n ≤ 102 then n - 87
    else 16
  if d < base then some d else none

/-- The number written by digits in a base, most significant first. -/
def digitsValue (base : Nat) : Nat → List Char → Option Nat
  | acc, [] => some acc
  | acc, c :: cs =>
    match digitValue base c with
    | some d => digitsValue base (acc * base + d) cs
    | none => none

/-- A number: decimal, `0x` hexadecimal or `0b` binary (00_scope.md R8). -/
def parseNumber (l : List Char) : Option Nat :=
  match l with
  | [] => none
  | '0' :: 'x' :: d :: ds => digitsValue 16 0 (d :: ds)
  | '0' :: 'b' :: d :: ds => digitsValue 2 0 (d :: ds)
  | d :: ds => digitsValue 10 0 (d :: ds)

/-- A pseudo-instruction with a number operand. -/
def withNumber (f : Nat → AsmLine) (x : List Char) : Except AsmError (Option AsmLine) :=
  match parseNumber x with
  | some n => .ok (some (f n))
  | none => .error (.badNumber x)

/-- One line from its words; no word, no line (30_encoding.md R79, R80). -/
def parseTokens (ts : List (List Char)) : Except AsmError (Option AsmLine) :=
  match ts with
  | [] => .ok none
  | [m] =>
    if m = ['N', 'O', 'P'] then .ok (some .nop)
    else if m = ['R', 'E', 'S', 'E', 'T'] then .ok (some .reset)
    else .error (.unknownLine ts)
  | [m, x] =>
    if m = ['F', 'E', 'E', 'D'] then
      if x = ['0'] then .ok (some (.feed 0))
      else if x = ['1'] then .ok (some (.feed 1))
      else .error (.badBit x)
    else if m = ['F', 'E', 'E', 'D', 'B', 'Y', 'T', 'E'] then withNumber .feedByte x
    else if m = ['P', 'U', 'T', 'B', 'Y', 'T', 'E'] then withNumber .putByte x
    else if m = ['I', 'D', 'L', 'E'] then withNumber .idle x
    else .error (.unknownLine ts)
  | _ => .error (.unknownLine ts)

/-- The commands a line stands for (30_encoding.md R80); an operand out of range is an assembly error (R79). -/
def expandLine (l : AsmLine) : Except AsmError (List Instr) :=
  if l.wellFormed then
    .ok (match l with
      | .nop => [.nop]
      | .reset => [.reset]
      | .feed v => [.feed (BitVec.ofNat 1 v)]
      | .feedByte v => feedByte (BitVec.ofNat 8 v)
      | .putByte v => putByte (BitVec.ofNat 8 v)
      | .idle n => idle n)
  else .error (.outOfRange l)

/-- The commands of one line of text. -/
def assembleLine (l : List Char) : Except AsmError (List Instr) :=
  match parseTokens (tokens (stripComment l)) with
  | .ok none => .ok []
  | .ok (some a) => expandLine a
  | .error e => .error e

/-- The commands of a list of lines, in cycle order (30_encoding.md R79). -/
def assembleLines : List (List Char) → Except AsmError (List Instr)
  | [] => .ok []
  | l :: ls =>
    match assembleLine l, assembleLines ls with
    | .ok is, .ok js => .ok (is ++ js)
    | .error e, _ => .error e
    | .ok _, .error e => .error e

/-- The commands of a program text, one line each (30_encoding.md R79). -/
def assemble (text : List Char) : Except AsmError (List Instr) :=
  assembleLines (pieces (fun c => c == '\n') text)

/-- One bit as a binary digit. -/
def bitChar (b : Bool) : Char := if b then '1' else '0'

/-- A command word in binary, `cmd[1]` first (30_encoding.md R81). -/
def wordChars (c : CmdWord) : List Char := [bitChar (c.getLsbD 1), bitChar (c.getLsbD 0)]

/-- The binary notation of a program: its words in cycle order, separated by spaces (30_encoding.md R81). -/
def programNotation : List Instr → List Char
  | [] => []
  | i :: is =>
    match is with
    | [] => wordChars (encode i)
    | _ :: _ => wordChars (encode i) ++ ' ' :: programNotation is

/-- The word two binary digits stand for. -/
def readWord (w : List Char) : Option CmdWord :=
  match w with
  | [a, b] =>
    match digitValue 2 a, digitValue 2 b with
    | some x, some y => some (BitVec.ofNat 2 (2 * x + y))
    | _, _ => none
  | _ => none

/-- The commands of a list of written words. -/
def readWords : List (List Char) → Option (List Instr)
  | [] => some []
  | w :: ws =>
    match readWord w, readWords ws with
    | some c, some is => some (decode c :: is)
    | _, _ => none

/-- The program a binary notation stands for (30_encoding.md R81). -/
def readNotation (text : List Char) : Option (List Instr) := readWords (tokens text)

end Sys2Proof.Machine
end

