-- ==== Sys2Proof/Machine/Run.lean ====
section
/-! DEFINITION. A run of one instance and what it shows (10_state.md R36, R37). -/

namespace Sys2Proof.Machine

/-- What a run shows: the outputs after every edge, the emitted bytes in order, and the final `st` (10_state.md R36). -/
structure Observation where
  /-- `(ready_o, byte_o)` after each edge. -/
  outputs : List Outputs
  /-- The emitted byte sequence. -/
  emitted : List Byte
  /-- The final value of `st`. -/
  final : StWord
deriving DecidableEq, Repr

/-- An observation with the cycle `c`, which ended in `t`, put before it. -/
def Observation.after (c : CycleInput) (t : State) (o : Observation) : Observation :=
  { outputs := outputsOf t :: o.outputs, emitted := (emittedBy c t).toList ++ o.emitted, final := o.final }

/-- The run from `st` over a list of cycle inputs (10_state.md R36). It ends after the last listed cycle. -/
def observeRun : List CycleInput → StWord → Host.Outcome Observation Fault Refusal
  | [], st => .next { outputs := [], emitted := [], final := st }
  | c :: cs, st =>
    match step { st := st, inputs := c :: cs } with
    | .next t =>
      match observeRun cs t.st with
      | .next o => .next (o.after c t)
      | .fault f => .fault f
      | .refused r => .refused r
    | .fault f => .fault f
    | .refused r => .refused r

/-- The bits a list of cycles feeds, in order. -/
def bitsFed (cs : List CycleInput) : List Bit := cs.filterMap bitFed

/-- A cycle that empties the accumulator: `rst = 1`, or a RESET command (10_state.md R28). -/
def isClearing (c : CycleInput) : Bool := c.rst || decide (decode c.cmd = .reset)

end Sys2Proof.Machine
end

