-- ==== Sys2Proof/Machine/System.lean ====
section
/-! DEFINITION. Many instances over the one table, and masters (60_exceptions.md R173; 20_memory.md R62, R64). The table
and `N_INST` are arguments of the system's step relation (10_state.md R38). -/

namespace Sys2Proof.Machine

/-- The state of a system. `masters` names, for each master of the system, the number of the instance whose `cmd` and
`rst` it drives; what it drives stands in that instance's `inputs` (log entry 5). -/
structure System where
  /-- The instances, each with its own `st` and inputs (60_exceptions.md R173). -/
  insts : List State
  /-- The instance each master drives. -/
  masters : List Nat
deriving DecidableEq, Repr

/-- The first number that stands again later in the list. -/
def firstRepeat : List Nat → Option Nat
  | [] => none
  | n :: ns => if n ∈ ns then some n else firstRepeat ns

/-- Why a system of `nInst` instances is refused, if it is: no instance (00_scope.md R6), a state of another number of
instances (10_state.md R38), or two masters on one (20_memory.md R64). -/
def System.refusal (nInst : Nat) (y : System) : Option Refusal :=
  if nInst = 0 then some .noInstances
  else if y.insts.length ≠ nInst then some (.wrongInstanceCount nInst y.insts.length)
  else (firstRepeat y.masters).map .multipleMasters

/-- One edge of every instance over the table `T`, each by its own inputs; the instances share the clock (log entry 8). -/
def stepAllFrom (T : Table) : List State → Host.Outcome (List State) Fault Refusal
  | [] => .next []
  | s :: ss =>
    match stepFrom T s with
    | .next t =>
      match stepAllFrom T ss with
      | .next ts => .next (t :: ts)
      | .fault f => .fault f
      | .refused r => .refused r
    | .fault f => .fault f
    | .refused r => .refused r

/-- The step relation of a system, with the table and `N_INST` as arguments (10_state.md R38): every instance steps by
41_accumulator_ops.md R130, independently of the others (60_exceptions.md R173). -/
def System.stepFrom (T : Table) (nInst : Nat) (y : System) : Host.Outcome System Fault Refusal :=
  match y.refusal nInst with
  | some r => .refused r
  | none =>
    match stepAllFrom T y.insts with
    | .next ts => .next { y with insts := ts }
    | .fault f => .fault f
    | .refused r => .refused r

/-- One edge of a system of `nInst` instances over the block's own table. -/
def System.step (nInst : Nat) (y : System) : Host.Outcome System Fault Refusal :=
  System.stepFrom transitionTable nInst y

/-- `k` edges of a system of `nInst` instances. -/
def System.run (nInst : Nat) : Nat → System → Host.Outcome System Fault Refusal
  | 0, y => .next y
  | k + 1, y =>
    match System.step nInst y with
    | .next z => System.run nInst k z
    | .fault f => .fault f
    | .refused r => .refused r

end Sys2Proof.Machine
end

