-- ==== Sys2Proof/Machine/Transaction.lean ====
section
/-! DEFINITION. The source's software interface over an unbounded state (00_scope.md R7; 41_accumulator_ops.md R134,
R135; 60_exceptions.md R160 to R169). -/

namespace Sys2Proof.Machine

/-- The code of an error condition (60_exceptions.md R160). -/
def Fault.code : Fault → Nat
  | .invalidBit _ => 1
  | .invalidState _ => 2

/-- An accumulator object of the transaction level: an unbounded `currentState` and the fault record that no later
step clears (60_exceptions.md R162, R165; log entry 3). -/
structure TxnState where
  /-- `currentState`. -/
  st : Nat
  /-- The recorded faults, oldest first. -/
  faults : List Fault
deriving DecidableEq, Repr

/-- The software calls (41_accumulator_ops.md R134, R135). -/
inductive TxnCall where
  /-- `feed(v)` -/
  | feed (v : Nat)
  /-- `reset()` -/
  | reset
deriving DecidableEq, Repr

/-- What a call gives its caller. -/
inductive TxnReturn where
  /-- `reset()` returns nothing (41_accumulator_ops.md R135). -/
  | nothing
  /-- `feed` returns `ready` and, when it is true, the byte (41_accumulator_ops.md R134). -/
  | fed (outputs : Outputs)
  /-- The error condition reported to the caller (60_exceptions.md R166). -/
  | raised (f : Fault)
deriving DecidableEq, Repr

/-- The hardware register that holds a state in 0..511. -/
def hardwareState (st : Nat) : State := { st := BitVec.ofNat 9 st, inputs := [] }

/-- `feed_txn(st, v)` (60_exceptions.md R161, R162): the argument is checked before the table index (R169); an error
writes nothing, otherwise the FEED of `v` is performed. -/
def feedTxn (st v : Nat) : Except Fault Nat :=
  if 2 ≤ v then .error (.invalidBit v)
  else if Config.stateCount ≤ st then .error (.invalidState st)
  else .ok (feedBit (BitVec.ofNat 1 v) (hardwareState st)).st.toNat

/-- A fault that is never left (60_exceptions.md R162, R167). -/
def Fault.isFatal : Fault → Bool
  | .invalidBit _ => false
  | .invalidState _ => true

/-- Reporting an error: it is added to the record and nothing else is written (60_exceptions.md R165, R166). -/
def TxnState.raise (t : TxnState) (f : Fault) : TxnState × TxnReturn :=
  ({ t with faults := t.faults ++ [f] }, .raised f)

/-- One software call. A recorded InvalidState is never left (60_exceptions.md R162); a recorded InvalidBit leaves the
object usable (R167, log entry 3). -/
def txnCall (t : TxnState) (c : TxnCall) : TxnState × TxnReturn :=
  match t.faults.find? Fault.isFatal with
  | some f => (t, .raised f)
  | none =>
    match c with
    | .reset => ({ t with st := (clearAccumulator (hardwareState t.st)).st.toNat }, .nothing)
    | .feed v =>
      match feedTxn t.st v with
      | .ok n => ({ t with st := n }, .fed (outputsOf (hardwareState n)))
      | .error f => t.raise f

/-- A constructed accumulator: `reset()` on a new object (41_accumulator_ops.md R135, 92_eei_decisions.md D27). -/
def TxnState.constructed : TxnState := { st := 0, faults := [] }

/-- The object after a list of calls. -/
def txnCalls : List TxnCall → TxnState → TxnState
  | [], t => t
  | c :: cs, t => txnCalls cs (txnCall t c).1

end Sys2Proof.Machine
end

