-- ==== Sys2Proof/Safety.lean ====
section
/-! DEFINITION. The terms claims are stated in: outcomes, the bits fed since the last reset, the caller's duties, and
the shift register the state encodes. -/

namespace Sys2Proof

/-- The next state of an outcome, if it has one. -/
def nextOf {σ φ ρ : Type} : Host.Outcome σ φ ρ → Option σ
  | .next s => some s
  | .fault _ => none
  | .refused _ => none

namespace Machine

/-- The value of a list of bits, most significant first (20_memory.md R51, R52). -/
def bitsValue (bs : List Bit) : Nat := bs.foldl (fun acc b => 2 * acc + b.toNat) 0

/-- `st` encodes exactly the bits `h` fed since the last reset: those of the byte being built, and once eight have come
the first eight, since bits fed to a terminal state are lost (20_memory.md R51, R52, R54; 40_transition_table.md R104). -/
def codesHistory (h : List Bit) (s : StWord) : Prop :=
  decodeState s = (min h.length 8, bitsValue (h.take 8))

/-- The bits fed since the last reset after the cycle `c`, if they were `h` before it. -/
def historyAfter (h : List Bit) (c : CycleInput) : List Bit :=
  if isClearing c then [] else h ++ (bitFed c).toList

/-- The low `k` bits of `v`, most significant first. -/
def bitsMsbFirst : Nat → Nat → List Bit
  | 0, _ => []
  | k + 1, v => bitsMsbFirst k (v / 2) ++ [BitVec.ofNat 1 v]

/-- The bits of the byte being built, oldest first: none once the byte is complete, for it was emitted. -/
def pendingBits (s : StWord) : List Bit :=
  if readyFlag s then [] else bitsMsbFirst (decodeState s).1 (decodeState s).2

/-- The caller's duties in one cycle: feed only while no completed byte waits for its reset (70_reset_and_hazards.md
R187), and reset only when `ready_o = 1` (R188). -/
def dutyAt (c : CycleInput) (s : StWord) : Bool :=
  (!(bitFed c).isSome || !readyFlag s) && (!isClearing c || readyFlag s)

/-- The caller keeps its duties in every cycle of a run from `s`. -/
def keepsDuties : List CycleInput → StWord → Bool
  | [], _ => true
  | c :: cs, s =>
    dutyAt c s &&
      match step { st := s, inputs := c :: cs } with
      | .next t => keepsDuties cs t.st
      | .fault _ => false
      | .refused _ => false

/-- The shift register of (bitCount, buffer) that the state encodes (00_scope.md R2, 40_transition_table.md R102 to
R104), written without the table. -/
structure Shifter where
  /-- Bits accumulated, 0..8. -/
  count : Nat
  /-- Their value. -/
  buffer : Nat
deriving DecidableEq, Repr

/-- The shift register a state encodes. -/
def shifterOf (s : StWord) : Shifter := { count := (decodeState s).1, buffer := (decodeState s).2 }

/-- Shift one bit in, unless the byte is complete. -/
def Shifter.push (p : Shifter) (b : Bit) : Shifter :=
  if p.count < 8 then { count := p.count + 1, buffer := 2 * p.buffer + b.toNat } else p

/-- The shift register after a cycle. -/
def Shifter.cycle (p : Shifter) (c : CycleInput) : Shifter :=
  if isClearing c then { count := 0, buffer := 0 }
  else match bitFed c with
    | some b => p.push b
    | none => p

/-- The byte values a run of the shift register reports, in order: one for each fed bit after which it is full. -/
def Shifter.reports : Shifter → List CycleInput → List Nat
  | _, [] => []
  | p, c :: cs =>
    (if (bitFed c).isSome && decide ((p.cycle c).count = 8) then [(p.cycle c).buffer] else [])
      ++ Shifter.reports (p.cycle c) cs

/-- The shift register after a run. -/
def Shifter.after (p : Shifter) (cs : List CycleInput) : Shifter := cs.foldl Shifter.cycle p

end Machine

end Sys2Proof
end

