-- ==== Sys2Proof/Certificates/Slice0/Obligations.lean ====
section
/-! DEFINITION. The statements for the provers. OBLIGATIONS.json gives each its tier, basis and citations. -/

open Sys2Proof Sys2Proof.Machine

/-! ## Encoding of commands -/

/-- 30_encoding.md R71, R72: every command word is one command; `cmd[1]` selects FEED of `cmd[0]`, else `cmd[0]` selects
NOP or RESET. -/
def Obligations.CommandWordsDecodeAsTabled : Prop :=
  decode 0b00#2 = .nop ∧ decode 0b01#2 = .reset ∧ decode 0b10#2 = .feed 0#1 ∧ decode 0b11#2 = .feed 1#1
    ∧ ∀ c : CmdWord,
      (c.getLsbD 1 = true → decode c = .feed (BitVec.ofBool (c.getLsbD 0)))
      ∧ (c.getLsbD 1 = false → c.getLsbD 0 = false → decode c = .nop)
      ∧ (c.getLsbD 1 = false → c.getLsbD 0 = true → decode c = .reset)

/-- 30_encoding.md section 1: every well-formed command's word decodes to it, by every decoder of the model, and every
word encodes back. -/
def Obligations.CommandsDecodeBackFromTheirWords : Prop :=
  (∀ i : Instr, i.wellFormed = true →
    decode (encode i) = i ∧ decodeWord (encode i).toNat = .ok i
      ∧ ∀ nbits, 2 ≤ nbits → decodeTableWord nbits (encode i).toNat = some i)
    ∧ ∀ c : CmdWord, encode (decode c) = c

/-- 30_encoding.md R70 and R75 give the format two bits; that a wider number is rejected by this name is the model's
choice (log entry 7). -/
def Obligations.WiderNumbersAreNoCommand : Prop :=
  ∀ w, 4 ≤ w → decodeWord w = .error (.notACommandWord w) ∧ ∀ nbits, w < 2 ^ nbits → decodeTableWord nbits w = none

/-- 30_encoding.md section 3 (R81): the notation of a program is its words `cmd[1] cmd[0]` in cycle order, separated by
single spaces; the spec's example; and no command of any program is lost in it, for reading it back gives the program. -/
def Obligations.ProgramNotationReadsBack : Prop :=
  (∀ p : List Instr, programNotation p = List.intercalate [' '] (p.map fun i => wordChars (encode i))
    ∧ readNotation (programNotation p) = some p)
    ∧ programNotation (feedByte 0xB2#8) =
      ['1', '1', ' ', '1', '0', ' ', '1', '1', ' ', '1', '1', ' ', '1', '0', ' ', '1', '0', ' ', '1', '1', ' ', '1', '0']

/-- 30_encoding.md section 3 (R79): the four commands as text, one a line, in cycle order; `;` starts a comment; an operand
of FEED other than the digit 0 or 1 is an assembly error, and so is FEED with no operand or with two. The names of the
errors, blanks and tabs as separators and the line feed as line end are the model's choice (log entry 6). -/
def Obligations.AssemblerReadsTheCommandLines : Prop :=
  assembleLine ['N', 'O', 'P'] = .ok [.nop]
    ∧ assembleLine ['R', 'E', 'S', 'E', 'T'] = .ok [.reset]
    ∧ assembleLine ['F', 'E', 'E', 'D', ' ', '0'] = .ok [.feed 0#1]
    ∧ assembleLine ['F', 'E', 'E', 'D', ' ', '1'] = .ok [.feed 1#1]
    ∧ (∀ x : List Char, x ≠ [] → (∀ c ∈ x, c ≠ ' ' ∧ c ≠ '\t' ∧ c ≠ ';') → x ≠ ['0'] → x ≠ ['1'] →
      assembleLine (['F', 'E', 'E', 'D', ' '] ++ x) = .error (.badBit x))
    ∧ assembleLine ['F', 'E', 'E', 'D'] = .error (.unknownLine [['F', 'E', 'E', 'D']])
    ∧ (∀ x y : List Char, x ≠ [] → y ≠ [] → (∀ c ∈ x ++ y, c ≠ ' ' ∧ c ≠ '\t' ∧ c ≠ ';') →
      assembleLine (['F', 'E', 'E', 'D', ' '] ++ x ++ ' ' :: y) = .error (.unknownLine [['F', 'E', 'E', 'D'], x, y]))
    ∧ (∀ l r : List Char, (∀ c ∈ l, c ≠ ';') → assembleLine (l ++ ';' :: r) = assembleLine l)
    ∧ ∀ l r : List Char, ∀ is js : List Instr, (∀ c ∈ l, c ≠ '\n') →
      assembleLine l = .ok is → assemble r = .ok js → assemble (l ++ '\n' :: r) = .ok (is ++ js)

/-- 30_encoding.md R80: the expansions, and their effects from a start state (IDLE from any state). -/
def Obligations.PseudoInstructionsHaveTheirEffect : Prop :=
  (∀ v : Byte, feedByte v =
      [.feed (bitAt v 7), .feed (bitAt v 6), .feed (bitAt v 5), .feed (bitAt v 4),
       .feed (bitAt v 3), .feed (bitAt v 2), .feed (bitAt v 1), .feed (bitAt v 0)]
    ∧ putByte v = feedByte v ++ [.reset])
    ∧ (∀ n, idle n = List.replicate n .nop)
    ∧ (∀ v : Byte, ∀ s : StWord, isStart s = true →
      (∃ o, observeRun (cyclesOf (feedByte v)) s = .next o
        ∧ o.outputs.getLast? = some { ready := true, byte := some v } ∧ o.emitted = [v])
      ∧ ∃ o, observeRun (cyclesOf (putByte v)) s = .next o ∧ o.emitted = [v] ∧ o.final = 0#9)
    ∧ ∀ n, ∀ s : StWord, ∃ o, observeRun (cyclesOf (idle n)) s = .next o ∧ o.final = s ∧ o.emitted = []

/-! ## The transition table -/

/-- 40_transition_table.md R101. -/
def Obligations.StartRowsGoToTheOneBitStates : Prop :=
  (∀ b : Bit, tableRead 0#9 b = { ready := false, next := BitVec.ofNat 9 (2 + b.toNat) }
    ∧ tableRead 1#9 b = { ready := false, next := BitVec.ofNat 9 (2 + b.toNat) })
    ∧ (∀ s : StWord, ∀ b : Bit, s.toNat < 256 →
      ((tableRead s b).next.toNat = 2 * s.toNat + b.toNat ↔ s ≠ 0#9))
    ∧ tableRead 0#9 1#1 = { ready := false, next := 3#9 }

/-- 40_transition_table.md R102. -/
def Obligations.IntermediateRowsShiftTheBitIn : Prop :=
  (∀ s : StWord, ∀ b : Bit, 2 ≤ s.toNat → s.toNat ≤ 127 →
    ∃ k v, decodeState s = (k, v) ∧ 1 ≤ k ∧ k ≤ 6 ∧ v < 2 ^ k ∧ s.toNat = 2 ^ k + v
      ∧ (tableRead s b).ready = false
      ∧ (tableRead s b).next.toNat = 2 ^ (k + 1) + (2 * v + b.toNat))
    ∧ tableRead 2#9 0#1 = { ready := false, next := 4#9 }
    ∧ tableRead 127#9 1#1 = { ready := false, next := 255#9 }
    ∧ tableRead 5#9 1#1 = { ready := false, next := 11#9 }

/-- 40_transition_table.md R103. -/
def Obligations.CompletingRowsReportTheByte : Prop :=
  (∀ s : StWord, ∀ b : Bit, 128 ≤ s.toNat → s.toNat ≤ 255 →
    decodeState s = (7, s.toNat - 128) ∧ (tableRead s b).ready = true
      ∧ (tableRead s b).next.toNat = 256 + (2 * (s.toNat - 128) + b.toNat))
    ∧ tableRead 128#9 0#1 = { ready := true, next := 256#9 }
    ∧ tableRead 255#9 1#1 = { ready := true, next := 511#9 }
    ∧ tableRead 217#9 0#1 = { ready := true, next := 434#9 }

/-- 40_transition_table.md R104. -/
def Obligations.TerminalRowsPointToThemselves : Prop :=
  (∀ s : StWord, ∀ b : Bit, 256 ≤ s.toNat → tableRead s b = { ready := true, next := s })
    ∧ tableRead 434#9 1#1 = { ready := true, next := 434#9 }

/-- 40_transition_table.md R105, whose text marks it as the spec's own inference '[derived: from rules R101 to R104 …]':
the closed form on numbers and on bits. -/
def Obligations.TableHasTheClosedForm : Prop :=
  ∀ s : StWord, ∀ b : Bit,
    (tableRead s b).next.toNat =
      (if s.toNat = 0 then 2 + b.toNat else if s.toNat ≤ 255 then 2 * s.toNat + b.toNat else s.toNat)
    ∧ (tableRead s b).next =
      (if s.getLsbD 8 then s else (if s = 0#9 then 0x01#8 else s.extractLsb' 0 8) ++ b)

/-- 40_transition_table.md R106, R107 (items 1 to 3) and R109, which the spec marks '[derived …]': over exact naturals no
entry leaves 0..511, ready is bit 8 of next, terminal rows are self-loops, and no entry leads to a start state. -/
def Obligations.TableEntriesStayInRange : Prop :=
  ∀ s b, s < 512 → b < 2 →
    (tableEntry s b).2 < 512 ∧ (tableEntry s b).1 = (tableEntry s b).2.testBit 8
      ∧ (256 ≤ s → (tableEntry s b).2 = s) ∧ 2 ≤ (tableEntry s b).2
      ∧ tableRead (BitVec.ofNat 9 s) (BitVec.ofNat 1 b) =
          { ready := (tableEntry s b).1, next := BitVec.ofNat 9 (tableEntry s b).2 }

/-- 30_encoding.md R77, R78: the address `2s + b` and the fields of the cell there. -/
def Obligations.CellsLieAtTheirAddresses : Prop :=
  ∀ s : StWord, ∀ b : Bit,
    (tableAddress s b).toNat = 2 * s.toNat + b.toNat
    ∧ (transitionTable (tableAddress s b)).getLsbD 9 = (tableRead s b).ready
    ∧ (transitionTable (tableAddress s b)).extractLsb' 0 9 = (tableRead s b).next

/-- 40_transition_table.md R112: any table with the cells of the row rules, given to the command, to the step relation of
an instance or to that of a system of any number of instances (10_state.md R38), acts as the block's own; and the closed
form (R105), the 2-column array and the realisation without a ready bit are such tables. -/
def Obligations.ConformingRealisationsRunAlike : Prop :=
  (∀ T : Table, T.conforms →
    (∀ i s, execFrom T i s = exec i s) ∧ (∀ s, stepFrom T s = step s)
      ∧ ∀ nInst y, System.stepFrom T nInst y = System.step nInst y)
    ∧ transitionTable.conforms ∧ Table.conforms closedFormTable
    ∧ (∀ rows : StWord → CellWord × CellWord,
      (∀ s, rows s = (packCell (transition s 0#1), packCell (transition s 1#1))) →
        (tableOfColumns rows).conforms)
    ∧ ∀ nexts : CellAddr → StWord, (∀ s b, nexts (tableAddress s b) = (transition s b).next) →
        (withoutReadyBit nexts).conforms

/-- 20_memory.md section 1 (R50), 90_conflicts.md C4: NOP and RESET read no cell of the table; FEED reads the one cell at
`{st, b}`, so that no other cell matters and that cell does. -/
def Obligations.OnlyFeedReadsTheTableAndOneCell : Prop :=
  (∀ T U : Table, ∀ s, execFrom T .nop s = execFrom U .nop s ∧ execFrom T .reset s = execFrom U .reset s)
    ∧ (∀ T U : Table, ∀ b s, T (tableAddress s.st b) = U (tableAddress s.st b) →
      execFrom T (.feed b) s = execFrom U (.feed b) s)
    ∧ (∀ T U : Table, ∀ b s, cellNext (T (tableAddress s.st b)) ≠ cellNext (U (tableAddress s.st b)) →
      execFrom T (.feed b) s ≠ execFrom U (.feed b) s)
    ∧ ∀ i s, execFrom transitionTable i s = exec i s

/-! ## The commands -/

/-- 41_accumulator_ops.md R131: NOP completes in every state, changes nothing, and is not a feed. -/
def Obligations.NopHoldsTheState : Prop :=
  (∀ c : CmdWord, decode c = .nop ↔ c = 0b00#2)
    ∧ (∀ s : State, exec .nop s = .next s ∧ emittedBy (cycleOf .nop) s = none)
    ∧ (∀ s : State, ∀ n, ∃ o, observeRun (cyclesOf (idle n)) s.st = .next o
      ∧ o.outputs = List.replicate n (outputsOf s) ∧ o.emitted = [] ∧ o.final = s.st)
    ∧ exec .nop { st := 217#9, inputs := [] } = .next { st := 217#9, inputs := [] }

/-- 41_accumulator_ops.md R132: RESET completes in every state, leaves 0, reads no cell and emits nothing. -/
def Obligations.ResetEmptiesTheAccumulator : Prop :=
  (∀ c : CmdWord, decode c = .reset ↔ c = 0b01#2)
    ∧ (∀ s : State, exec .reset s = .next { s with st := 0#9 }
      ∧ (∀ T : Table, execFrom T .reset s = .next { s with st := 0#9 })
      ∧ readyO { s with st := 0#9 } = false ∧ byteO { s with st := 0#9 } = none
      ∧ emittedBy (cycleOf .reset) { s with st := 0#9 } = none)
    ∧ exec .reset { st := 434#9, inputs := [] } = .next { st := 0#9, inputs := [] }

/-- 41_accumulator_ops.md R133: FEED b completes in every state with the next state of the cell read; the flag and the
byte after it are those of the cell; the corner cases by state class; the example. -/
def Obligations.FeedPushesOneBitThroughTheTable : Prop :=
  (∀ c : CmdWord, ∀ b : Bit, decode c = .feed b ↔ c = 1#1 ++ b)
    ∧ (∀ s : State, ∀ b : Bit, ∃ t : State, exec (.feed b) s = .next t
      ∧ t = { s with st := (tableRead s.st b).next }
      ∧ readyO t = (tableRead s.st b).ready
      ∧ byteO t = (if (tableRead s.st b).ready then some (BitVec.ofNat 8 ((tableRead s.st b).next.toNat - 256)) else none)
      ∧ (s.st = 0#9 ∨ s.st = 1#9 → t.st.toNat = 2 + b.toNat)
      ∧ (2 ≤ s.st.toNat → s.st.toNat ≤ 127 → readyO t = false)
      ∧ (128 ≤ s.st.toNat → s.st.toNat ≤ 255 →
        byteO t = some (BitVec.ofNat 8 (2 * (s.st.toNat - 128) + b.toNat)))
      ∧ (256 ≤ s.st.toNat → t = s ∧ emittedBy (cycleOf (.feed b)) t = byteO s))
    ∧ exec (.feed 0#1) { st := 217#9, inputs := [] } = .next { st := 434#9, inputs := [] }
    ∧ outputsOf { st := 434#9, inputs := [] } = { ready := true, byte := some 0xB2#8 }

/-- 10_state.md section 2 (R26, R29, R31) and 41_accumulator_ops.md section 4: a command changes nothing but `st`, which
is all the block has; the inputs still to come are the model's own field (log entry 1). -/
def Obligations.CommandsChangeOnlyTheRegister : Prop :=
  ∀ i s t, exec i s = .next t → t = { s with st := t.st } ∧ t.inputs = s.inputs ∧ (i = .nop → t.st = s.st)

/-- 20_memory.md section 4 (R58), 40_transition_table.md R103, R104: a FEED leaves `st` exactly in the terminal states,
and a second FEED of the same bit changes nothing more exactly from 128 up. R58 calls two FEEDs not idempotent from every
non-terminal state; for 128..255 the model follows R103 and R104 (log entry 4). -/
def Obligations.FeedSettlesOnlyAtACompleteByte : Prop :=
  ∀ (s : State) (b : Bit), ∃ t u : State, exec (.feed b) s = .next t ∧ exec (.feed b) t = .next u
    ∧ (t = s ↔ 256 ≤ s.st.toNat) ∧ (u = t ↔ 128 ≤ s.st.toNat)

/-! ## The step -/

/-- 41_accumulator_ops.md R130: one edge as the rule's pseudocode has it, for every register value and every input. -/
def Obligations.StepFollowsThePseudocode : Prop :=
  ∀ (v : StWord) (r : Bool) (cmd : CmdWord) (rest : List CycleInput),
    step { st := v, inputs := { rst := r, cmd := cmd } :: rest } =
      .next { inputs := rest,
              st := if r then 0#9
                    else if cmd = 0b00#2 then v
                    else if cmd = 0b01#2 then 0#9
                    else (tableRead v (cmd.extractLsb' 0 1)).next }

/-- 10_state.md section 4 (R38): the step relation takes the table as an argument. With `rst = 1` it clears `st` whatever
the table holds; with `rst = 0` it runs the command of the cycle over the given table, and a FEED takes the next state
from that table's cell; the block's step is it at the block's own table. That it needs a cycle input left is the model's
form of a run (log entry 1). -/
def Obligations.StepTakesTheTableAsAnArgument : Prop :=
  (∀ (T : Table) (v : StWord) (c : CycleInput) (rest : List CycleInput),
    (c.rst = true → stepFrom T { st := v, inputs := c :: rest } = .next { st := 0#9, inputs := rest })
    ∧ (c.rst = false → stepFrom T { st := v, inputs := c :: rest } = execFrom T (decode c.cmd) { st := v, inputs := rest })
    ∧ ∀ b, c.rst = false → c.cmd = 1#1 ++ b →
      stepFrom T { st := v, inputs := c :: rest } =
        .next { st := (T (tableAddress v b)).extractLsb' 0 9, inputs := rest })
    ∧ ∀ s, stepFrom transitionTable s = step s

/-- 41_accumulator_ops.md section 1: with `rst = 0` the step is `exec` of the command that `cmd` decodes to, on the state
whose coming inputs are the later cycles'; the list of inputs is the model's own (log entry 1). -/
def Obligations.StepRunsTheDecodedCommand : Prop :=
  ∀ (s : State) (c : CycleInput) (rest : List CycleInput), s.inputs = c :: rest → c.rst = false →
    step s = exec (decode c.cmd) { s with inputs := rest }
    ∧ ∀ i, c.cmd = encode i → step s = exec i { s with inputs := rest }

/-- 70_reset_and_hazards.md R180, 30_encoding.md R76: `rst = 1` sets `st` to 0 whatever `cmd` carries, as the RESET command
does; one cycle is enough, and holding it keeps 0. -/
def Obligations.SystemResetWinsOverTheCommand : Prop :=
  (∀ (s : State) (c : CycleInput) (rest : List CycleInput), s.inputs = c :: rest → c.rst = true →
    step s = .next { st := 0#9, inputs := rest } ∧ step s = exec .reset { s with inputs := rest })
    ∧ ∀ (cs : List CycleInput) (v : StWord), cs ≠ [] → (∀ c ∈ cs, c.rst = true) →
      ∃ o, observeRun cs v = .next o ∧ o.final = 0#9
        ∧ o.outputs = List.replicate cs.length { ready := false, byte := none } ∧ o.emitted = []

/-- 10_state.md R36 ends a run after its last listed cycle; that the step then stops under this name, and only then, is
the model's choice (log entry 1). -/
def Obligations.StepStopsOnlyAtTheEndOfTheRun : Prop :=
  ∀ s : State, (s.inputs = [] → step s = .refused .runEnded) ∧ (s.inputs ≠ [] → ∃ t, step s = .next t)

/-- 60_exceptions.md section 1 (R160 to R162): neither error condition, and no other fault, arises at the command level. -/
def Obligations.HardwareRaisesNoError : Prop :=
  ∀ (s : State) (f : Fault), step s ≠ .fault f ∧ ∀ i, exec i s ≠ .fault f

/-- The placing of a command is the model's own (log entry 7): a command placed runs in the very next step. -/
def Obligations.PlacedCommandRunsNext : Prop :=
  ∀ (s : State) (i : Instr) (nbits : Nat), 2 ≤ nbits →
    step (s.withFetchWord nbits (encode i).toNat) = exec i { s with inputs := s.inputs.tail }

/-- 70_reset_and_hazards.md section 1 (R182), 10_state.md R39: the machine right after reset holds the empty start state 0,
is not ready and gives no byte. That no input is listed yet is the model's choice (log entry 1). -/
def Obligations.ResetStateIsEmpty : Prop :=
  State.reset.st = 0#9 ∧ outputsOf State.reset = { ready := false, byte := none }
    ∧ codesHistory [] State.reset.st ∧ State.reset.st ≠ 1#9 ∧ State.reset.inputs = []

/-- 40_transition_table.md R107 (item 3), 10_state.md R25 (which the spec marks '[derived: from rule R107]'): the alias
state 1 is entered by no step. -/
def Obligations.AliasStateIsNeverEntered : Prop :=
  ∀ s t : State, s.st ≠ 1#9 → step s = .next t → t.st ≠ 1#9

/-- 20_memory.md section 2 and R54, 40_transition_table.md R102 to R104: at every step the register goes on encoding
exactly the bits fed since the last reset. -/
def Obligations.StepKeepsTheFedHistory : Prop :=
  ∀ (h : List Bit) (s t : State) (c : CycleInput) (rest : List CycleInput),
    codesHistory h s.st → s.inputs = c :: rest → step s = .next t →
      codesHistory (historyAfter h c) t.st ∧ t.inputs = rest

/-- 10_state.md section 2 (R28): the ready flag. That it is true exactly in the terminal states is the spec's own inference,
marked there '[derived: from rule R22 and 40_transition_table.md rule R106]'. A FEED sets it when its bit is the 8th since the last reset and leaves it set in a
terminal state; only RESET and `rst` clear it; NOP keeps it. -/
def Obligations.ReadyRisesOnTheEighthBitAndFallsOnReset : Prop :=
  (∀ s : State, readyO s = s.st.getLsbD 8 ∧ (readyO s = true ↔ isTerminal s.st = true))
    ∧ ∀ (s t : State) (c : CycleInput) (rest : List CycleInput), s.inputs = c :: rest → step s = .next t →
      (∀ h, codesHistory h s.st → isClearing c = false → (bitFed c).isSome = true →
        readyO t = decide (8 ≤ h.length + 1))
      ∧ (isClearing c = false → readyO s = true → readyO t = true)
      ∧ (isClearing c = true → readyO t = false)
      ∧ (isClearing c = false → bitFed c = none → readyO t = readyO s)

/-- 10_state.md R33, R34: the outputs as functions of the register. -/
def Obligations.OutputsFollowTheRegister : Prop :=
  (∀ s : State, readyO s = s.st.getLsbD 8
    ∧ (readyO s = true → byteO s = some (s.st.extractLsb' 0 8) ∧ byteO s = some (BitVec.ofNat 8 (s.st.toNat - 256)))
    ∧ (readyO s = false → byteO s = none))
    ∧ (∀ (s : State) (b : Bit), ∃ t, exec (.feed b) s = .next t ∧ readyO t = (tableRead s.st b).ready)
    ∧ (∀ s : State, ∃ t, exec .reset s = .next t ∧ readyO t = false)
    ∧ ∀ (s : State) (c : CycleInput) (rest : List CycleInput), s.inputs = c :: rest → c.rst = true →
      ∃ t, step s = .next t ∧ readyO t = false

/-! ## The coding of the state -/

/-- 10_state.md section 1 (R22). That `buffer` is also `s[k-1:0]` is the spec's own inference, marked there '[derived: from
"state = 2^bitCount + buffer" and buffer < 2^bitCount]'. -/
def Obligations.StatesDecodeToCountAndBuffer : Prop :=
  decodeState 0#9 = (0, 0) ∧ decodeState 1#9 = (0, 0)
    ∧ (∀ k v, 1 ≤ k → k ≤ 7 → v < 2 ^ k → decodeState (BitVec.ofNat 9 (2 ^ k + v)) = (k, v))
    ∧ (∀ s : StWord, 2 ≤ s.toNat → s.toNat ≤ 255 →
      1 ≤ (decodeState s).1 ∧ (decodeState s).1 ≤ 7 ∧ s.toNat.testBit (decodeState s).1 = true
      ∧ s.toNat < 2 ^ ((decodeState s).1 + 1) ∧ (decodeState s).2 = s.toNat - 2 ^ (decodeState s).1
      ∧ (decodeState s).2 = s.toNat % 2 ^ (decodeState s).1)
    ∧ ∀ s : StWord, 256 ≤ s.toNat → decodeState s = (8, s.toNat - 256) ∧ s.toNat - 256 = (s.extractLsb' 0 8).toNat

/-- 10_state.md R23. -/
def Obligations.StateCodingRoundTrips : Prop :=
  encodeState 0 0 = 0#9
    ∧ (∀ k v, 1 ≤ k → k ≤ 7 → v < 2 ^ k → (encodeState k v).toNat = 2 ^ k + v)
    ∧ (∀ v, v ≤ 255 → (encodeState 8 v).toNat = 256 + v)
    ∧ (∀ k v, legalPair k v = true → decodeState (encodeState k v) = (k, v))
    ∧ (∀ s : StWord, s ≠ 1#9 → encodeState (decodeState s).1 (decodeState s).2 = s)
    ∧ decodeState 1#9 = (0, 0) ∧ encodeState (decodeState 1#9).1 (decodeState 1#9).2 = 0#9

/-- 10_state.md R24: the three classes, their sizes, and the edges of the intermediate and terminal states. -/
def Obligations.StatesFallIntoThreeClasses : Prop :=
  (∀ s : StWord, (isStart s = true ↔ s.toNat = 0 ∨ s.toNat = 1)
    ∧ (isIntermediate s = true ↔ 2 ≤ s.toNat ∧ s.toNat ≤ 255) ∧ (isTerminal s = true ↔ 256 ≤ s.toNat))
    ∧ (List.range 512).countP (fun n => isStart (BitVec.ofNat 9 n)) = 2
    ∧ (List.range 512).countP (fun n => isIntermediate (BitVec.ofNat 9 n)) = 254
    ∧ (List.range 512).countP (fun n => isTerminal (BitVec.ofNat 9 n)) = 256
    ∧ (∀ s : StWord, isIntermediate s = true →
      1 ≤ (decodeState s).1 ∧ (decodeState s).1 ≤ 7 ∧ (tableRead s 0#1).next ≠ (tableRead s 1#1).next
      ∧ (tableRead s 0#1).next ≠ s ∧ (tableRead s 1#1).next ≠ s)
    ∧ ∀ s : StWord, isTerminal s = true → (decodeState s).1 = 8 ∧ ∀ b, (tableRead s b).next = s

/-! ## Runs -/

/-- 10_state.md R25: the alias shows in every run what state 0 shows, and ends alike unless no cycle fed or cleared. -/
def Obligations.AliasStartsShowTheSame : Prop :=
  ∀ cs : List CycleInput, ∃ o p, observeRun cs 0#9 = .next o ∧ observeRun cs 1#9 = .next p
    ∧ o.outputs = p.outputs ∧ o.emitted = p.emitted
    ∧ ((∃ c ∈ cs, isClearing c = true ∨ (bitFed c).isSome = true) → o.final = p.final)

/-- 20_memory.md R51: most-significant bit first, whatever idle cycles stand between the feeds. -/
def Obligations.FirstBitFedIsMostSignificant : Prop :=
  ∀ (s : StWord) (cs : List CycleInput) (b0 b1 b2 b3 b4 b5 b6 b7 : Bit), isStart s = true →
    (∀ c ∈ cs, isClearing c = false) → bitsFed cs = [b0, b1, b2, b3, b4, b5, b6, b7] →
    ∃ o, observeRun cs s = .next o ∧ readyFlag o.final = true
      ∧ (completedByte o.final).toNat =
        b0.toNat * 2 ^ 7 + b1.toNat * 2 ^ 6 + b2.toNat * 2 ^ 5 + b3.toNat * 2 ^ 4
          + b4.toNat * 2 ^ 3 + b5.toNat * 2 ^ 2 + b6.toNat * 2 ^ 1 + b7.toNat * 2 ^ 0
      ∧ bitAt (completedByte o.final) 7 = b0 ∧ bitAt (completedByte o.final) 0 = b7

/-- 20_memory.md R52 (which the spec marks '[derived …]') and R55: after 1 to 7 feeds the register holds the marker bit and
the bits fed; nothing is emitted, and a RESET or `rst` then discards them and emits nothing. -/
def Obligations.PartialByteIsHeldAndNeverEmitted : Prop :=
  ∀ (s : StWord) (cs : List CycleInput), isStart s = true → (∀ c ∈ cs, isClearing c = false) →
    1 ≤ (bitsFed cs).length → (bitsFed cs).length ≤ 7 →
    (∃ o, observeRun cs s = .next o ∧ o.emitted = []
      ∧ o.final.toNat = 2 ^ (bitsFed cs).length + bitsValue (bitsFed cs)
      ∧ bitsValue (bitsFed cs) < 2 ^ (bitsFed cs).length)
    ∧ ∀ c, isClearing c = true → ∃ o, observeRun (cs ++ [c]) s = .next o ∧ o.emitted = [] ∧ o.final = 0#9

/-- 20_memory.md R54: after the last RESET or `rst`, whatever came before it, and equally from either start state, the
block is ready exactly from the 8th FEED on. -/
def Obligations.ByteCompletesAtTheEighthFeed : Prop :=
  ∀ (cs : List CycleInput), (∀ c ∈ cs, isClearing c = false) →
    (∀ s : StWord, isStart s = true →
      ∃ o, observeRun cs s = .next o ∧ readyFlag o.final = decide (8 ≤ (bitsFed cs).length))
    ∧ ∀ (s : StWord) (before : List CycleInput) (r : CycleInput), isClearing r = true →
      ∃ o, observeRun (before ++ r :: cs) s = .next o ∧ readyFlag o.final = decide (8 ≤ (bitsFed cs).length)

/-- 20_memory.md section 6 (R60), 70_reset_and_hazards.md section 3 (R189): commands take effect one a cycle in the order
given, each on what the cycle before it left. -/
def Obligations.RunsComposeInOrder : Prop :=
  ∀ (cs ds : List CycleInput) (s : StWord), ∃ o p q,
    observeRun cs s = .next o ∧ observeRun ds o.final = .next p ∧ observeRun (cs ++ ds) s = .next q
    ∧ q.outputs = o.outputs ++ p.outputs ∧ q.emitted = o.emitted ++ p.emitted ∧ q.final = p.final

/-- 10_state.md section 4 (R36): a run takes as many edges as its list has cycles, ends in the state it shows, and emits
`byte_o` after each edge whose cycle fed a bit while `ready_o = 1` after it, in order. -/
def Obligations.RunIsTheStepsOfItsCycles : Prop :=
  ∀ (cs : List CycleInput) (s : StWord), ∃ o, observeRun cs s = .next o
    ∧ Host.Core.run Sys2Proof.core cs.length ({ st := s, inputs := cs } : State)
        = .next ({ st := o.final, inputs := [] } : State)
    ∧ o.outputs.length = cs.length
    ∧ o.emitted = (cs.zip o.outputs).filterMap fun p => if (bitFed p.1).isSome && p.2.ready then p.2.byte else none

/-- 60_exceptions.md R163: bits fed to a terminal state raise no error and report the same byte again, once each. -/
def Obligations.UnresetTerminalRepeatsItsByte : Prop :=
  ∀ (s : StWord) (cs : List CycleInput), isTerminal s = true → (∀ c ∈ cs, isClearing c = false) →
    ∃ o, observeRun cs s = .next o ∧ o.final = s
      ∧ o.outputs = List.replicate cs.length { ready := true, byte := some (completedByte s) }
      ∧ o.emitted = List.replicate (bitsFed cs).length (completedByte s)

/-- 70_reset_and_hazards.md sections 1 and 2 (R181, R183): after one RESET or `rst` a run shows the same from every
register value, so from every value that power-on may draw (log entry 2). -/
def Obligations.ResetForgetsTheHistory : Prop :=
  ∀ (c : CycleInput) (cs : List CycleInput), isClearing c = true →
    (∀ u v : StWord, observeRun (c :: cs) u = observeRun (c :: cs) v)
    ∧ ∀ k, observeRun (c :: cs) (State.powerOn k []).st = observeRun (c :: cs) State.reset.st
      ∧ ∀ s, observeRun (c :: cs) (State.powerCycle k s).st = observeRun (c :: cs) State.reset.st

/-- 70_reset_and_hazards.md section 3 (R186): a completed byte stays on the output through any number of NOPs, is not
emitted again by them, and has no value after the RESET. -/
def Obligations.CompletedByteWaitsForItsReset : Prop :=
  ∀ (s : StWord) (n : Nat), isTerminal s = true →
    ∃ o, observeRun (cyclesOf (idle n ++ [.reset])) s = .next o ∧ o.emitted = [] ∧ o.final = 0#9
      ∧ o.outputs = List.replicate n { ready := true, byte := some (completedByte s) }
          ++ [{ ready := false, byte := none }]

/-- 70_reset_and_hazards.md section 3 (R185), 10_state.md R37: the driving loop, PUTBYTE after PUTBYTE, emits every byte
exactly once and in order. -/
def Obligations.DrivingLoopEmitsEveryByteOnce : Prop :=
  ∀ (vs : List Byte) (s : StWord), isStart s = true →
    ∃ o, observeRun (cyclesOf (vs.flatMap putByte)) s = .next o ∧ o.emitted = vs ∧ isStart o.final = true

/-- 70_reset_and_hazards.md section 3 (R187, R188, R190): for a caller that feeds only while the block is not ready and
resets only when it is, in any run from any register value, the bits of the emitted bytes followed by those still held
are the bits held at the start followed by all bits fed: none is lost, repeated or reordered. -/
def Obligations.DutifulCallerLosesNoBit : Prop :=
  ∀ (cs : List CycleInput) (s : StWord), keepsDuties cs s = true →
    ∃ o, observeRun cs s = .next o
      ∧ o.emitted.flatMap bitsOfByte ++ pendingBits o.final = pendingBits s ++ bitsFed cs

/-- 00_scope.md section 1 and 40_transition_table.md sections 2 and 3 (the source's 'finite-state encoding of a shift
register'): every run reports what the shift register of (bitCount, buffer), which has no table, reports, and ends in a
state that encodes it. -/
def Obligations.MachineRefinesTheShiftRegister : Prop :=
  ∀ (cs : List CycleInput) (s : StWord), ∃ o, observeRun cs s = .next o
    ∧ o.emitted.map BitVec.toNat = (shifterOf s).reports cs ∧ shifterOf o.final = (shifterOf s).after cs

/-! ## The software interface -/

/-- 60_exceptions.md R161: `feed(v)` with `v >= 2` raises InvalidBit(v) and writes nothing; with a bit it is the step with
`rst = 0` and `cmd = {1, v}`; no command of the hardware raises it. -/
def Obligations.InvalidBitIsRaisedAndWritesNothing : Prop :=
  (∀ st v, 2 ≤ v → feedTxn st v = .error (.invalidBit v) ∧ (Fault.invalidBit v).code = 1)
    ∧ (∀ st v, v < 2 → st < 512 → ∃ u : State,
      step { st := BitVec.ofNat 9 st, inputs := [{ rst := false, cmd := 1#1 ++ BitVec.ofNat 1 v }] } = .next u
      ∧ feedTxn st v = .ok u.st.toNat)
    ∧ ∀ (s : State) (i : Instr) (v : Nat), exec i s ≠ .fault (.invalidBit v)

/-- 60_exceptions.md R162: in the unbounded model `feed` from `s >= 512` raises InvalidState(s), and the faulted state is
never left; from the states of the hardware, terminal ones among them, it never arises. That the record is a list and
that a recorded InvalidState stops every later call is the model's reading (log entry 3). -/
def Obligations.InvalidStateIsRaisedAndNeverLeft : Prop :=
  (∀ s v, 512 ≤ s → v < 2 → feedTxn s v = .error (.invalidState s) ∧ (Fault.invalidState s).code = 2)
    ∧ (∀ s v n, s < 512 → feedTxn s v ≠ .error (.invalidState n) ∧ ∀ m, feedTxn s v = .ok m → m < 512)
    ∧ (∀ t : TxnState, ∀ v, (∀ f ∈ t.faults, f.isFatal = false) → 512 ≤ t.st → v < 2 →
      txnCall t (.feed v) = ({ t with faults := t.faults ++ [.invalidState t.st] }, .raised (.invalidState t.st)))
    ∧ (∀ (t : TxnState) (calls : List TxnCall) (s : Nat), Fault.invalidState s ∈ t.faults → txnCalls calls t = t)
    ∧ ∀ (s : State) (i : Instr) (n : Nat), exec i s ≠ .fault (.invalidState n) ∧ step s ≠ .fault (.invalidState n)

/-- 60_exceptions.md R169: `rst` wins over any command; otherwise exactly one command is performed; InvalidBit is reported
when both errors apply. -/
def Obligations.SimultaneousEventsHaveTheirPriority : Prop :=
  (∀ (v : StWord) (cmd : CmdWord) (rest : List CycleInput),
    step { st := v, inputs := { rst := true, cmd := cmd } :: rest } = .next { st := 0#9, inputs := rest })
    ∧ (∀ (v : StWord) (cmd : CmdWord) (rest : List CycleInput), ∃ i, encode i = cmd ∧ (∀ j, encode j = cmd → j = i)
      ∧ step { st := v, inputs := { rst := false, cmd := cmd } :: rest } = exec i { st := v, inputs := rest })
    ∧ ∀ s v, 512 ≤ s → 2 ≤ v → feedTxn s v = .error (.invalidBit v)

/-- 60_exceptions.md section 1 (R165): no later call clears the fault record. That it is a list of all faults, oldest
first, is the model's reading (log entry 3). -/
def Obligations.FaultRecordIsNeverCleared : Prop :=
  ∀ (calls : List TxnCall) (t : TxnState), t.faults <+: (txnCalls calls t).faults

/-- 41_accumulator_ops.md R134, R135: the software calls are one cycle each, and return what the outputs show after its
edge. That a call is answered while no fatal fault stands is the model's reading (log entry 3). -/
def Obligations.SoftwareCallsAreOneCycle : Prop :=
  (∀ t : TxnState, (∀ f ∈ t.faults, f.isFatal = false) → t.st < 512 →
    (∀ v, v < 2 → ∃ u : State,
      step { st := BitVec.ofNat 9 t.st, inputs := [{ rst := false, cmd := 1#1 ++ BitVec.ofNat 1 v }] } = .next u
      ∧ txnCall t (.feed v) = ({ t with st := u.st.toNat }, .fed { ready := readyO u, byte := byteO u })
      ∧ (readyO u = false → byteO u = none))
    ∧ (∀ v, 2 ≤ v → txnCall t (.feed v) = ({ t with faults := t.faults ++ [.invalidBit v] }, .raised (.invalidBit v)))
    ∧ ∀ c : CycleInput, c.cmd = 0b01#2 ∨ c.rst = true → ∃ u : State,
      step { st := BitVec.ofNat 9 t.st, inputs := [c] } = .next u
      ∧ txnCall t .reset = ({ t with st := u.st.toNat }, .nothing))
    ∧ TxnState.constructed = (txnCall TxnState.constructed .reset).1 ∧ TxnState.constructed.st = 0

/-! ## Many instances -/

/-- 60_exceptions.md section 3 (R173), 20_memory.md section 6 (R62): at an edge each instance steps by its own state and
inputs, and the number of instances, which is the argument `nInst` of the step relation, and the masters stay. That an
edge of the system is an edge of every instance is the model's deduction of a shared clock (log entry 8). -/
def Obligations.InstancesStepIndependently : Prop :=
  ∀ (nInst : Nat) (y z : System), System.step nInst y = .next z →
    z.masters = y.masters ∧ y.insts.length = nInst ∧ z.insts.length = nInst ∧ 1 ≤ nInst
    ∧ ∀ (i : Nat) (s : State), y.insts[i]? = some s → ∃ t, step s = .next t ∧ z.insts[i]? = some t

/-- 20_memory.md section 6 (R62), 60_exceptions.md section 3 (R173): after any number of edges an instance's state depends
on its own state and inputs alone, whatever the other instances and their number. That n edges of a system are n edges of
each instance is the model's deduction of a shared clock (log entry 8). -/
def Obligations.InstanceLearnsNothingOfOthers : Prop :=
  ∀ (k nInst nInst' : Nat) (y y' z z' : System) (i j : Nat),
    System.run nInst k y = .next z → System.run nInst' k y' = .next z' →
    y.insts[i]? = y'.insts[j]? → z.insts[i]? = z'.insts[j]?

/-- 60_exceptions.md section 3 (R173), 00_scope.md R6: a system of one or more instances, each with at most one master and
inputs for the coming cycle, takes its step. That all need an input for the common edge is the model's deduction of a
shared clock (log entry 8), and the list of masters is the model's choice of form (log entry 5). -/
def Obligations.WellDrivenSystemsStep : Prop :=
  ∀ (nInst : Nat) (y : System), 1 ≤ nInst → y.insts.length = nInst → y.masters.Nodup →
    (∀ s ∈ y.insts, s.inputs ≠ []) → ∃ z, System.step nInst y = .next z

/-- 20_memory.md section 6 (R64), 93_implementation_defined.md U6: a system with two masters on one instance is refused,
and named by such an instance. The list of masters, and the refusal of a system of no instance and of a state that does
not hold `nInst` instances, are the model's own (log entry 5). -/
def Obligations.TwoMastersOnOneInstanceAreRefused : Prop :=
  (∀ (nInst : Nat) (y : System), 1 ≤ nInst → y.insts.length = nInst → ¬ y.masters.Nodup →
    ∃ i, System.step nInst y = .refused (.multipleMasters i) ∧ 2 ≤ y.masters.count i)
    ∧ (∀ y : System, System.step 0 y = .refused .noInstances)
    ∧ ∀ (nInst : Nat) (y : System), 1 ≤ nInst → y.insts.length ≠ nInst →
      System.step nInst y = .refused (.wrongInstanceCount nInst y.insts.length)
end

