-- ==== Sys2Proof/Laws/State.lean ====
section
/-! SUPPORT. One lemma for each field under each update of the state. -/

namespace Sys2Proof.Machine

@[simp] theorem setSt_st (s : State) (v : StWord) : (s.setSt v).st = v := rfl
@[simp] theorem setSt_inputs (s : State) (v : StWord) : (s.setSt v).inputs = s.inputs := rfl
@[simp] theorem clearAccumulator_st (s : State) : (clearAccumulator s).st = 0#9 := rfl
@[simp] theorem clearAccumulator_inputs (s : State) : (clearAccumulator s).inputs = s.inputs := rfl
@[simp] theorem feedFrom_st (T : Table) (b : Bit) (s : State) :
    (feedFrom T b s).st = (tableReadFrom T s.st b).next := rfl
@[simp] theorem feedFrom_inputs (T : Table) (b : Bit) (s : State) : (feedFrom T b s).inputs = s.inputs := rfl
@[simp] theorem feedBit_st (b : Bit) (s : State) : (feedBit b s).st = (tableRead s.st b).next := rfl
@[simp] theorem feedBit_inputs (b : Bit) (s : State) : (feedBit b s).inputs = s.inputs := rfl
@[simp] theorem presentCommand_st (c : CmdWord) (s : State) : (presentCommand c s).st = s.st := rfl
@[simp] theorem presentCommand_inputs (c : CmdWord) (s : State) :
    (presentCommand c s).inputs = { rst := false, cmd := c } :: s.inputs.tail := rfl
@[simp] theorem powerOn_inputs (k : Nat) (cs : List CycleInput) : (State.powerOn k cs).inputs = cs := rfl
@[simp] theorem powerCycle_inputs (k : Nat) (s : State) : (State.powerCycle k s).inputs = s.inputs := rfl
@[simp] theorem reset_st : State.reset.st = 0#9 := rfl
@[simp] theorem reset_inputs : State.reset.inputs = [] := rfl

@[simp] theorem outputsOf_ready (s : State) : (outputsOf s).ready = readyO s := rfl
@[simp] theorem outputsOf_byte (s : State) : (outputsOf s).byte = byteO s := rfl

end Sys2Proof.Machine
end

