-- ==== Sys2Proof/Laws/Ops.lean ====
section
/-! SUPPORT. What each shared operation can do, said once. -/

namespace Sys2Proof.Machine

/-- The inputs sampled are the first of the list, and only the list loses them. -/
theorem sampleInputs_some_iff (s t : State) (c : CycleInput) :
    sampleInputs s = some (c, t) ↔ s.inputs = c :: t.inputs ∧ s.st = t.st := by
  obtain ⟨st, ins⟩ := s
  obtain ⟨st', ins'⟩ := t
  cases ins with
  | nil => simp [sampleInputs]
  | cons d ds =>
    simp only [sampleInputs, Option.some.injEq, Prod.mk.injEq, State.mk.injEq, List.cons.injEq]
    tauto

/-- Nothing is sampled exactly when no input is left. -/
theorem sampleInputs_none_iff (s : State) : sampleInputs s = none ↔ s.inputs = [] := by
  cases h : s.inputs <;> simp [sampleInputs, h]

/-- The row of the address formed from a state and a bit is that state. -/
theorem addressState_tableAddress (s : StWord) (b : Bit) : addressState (tableAddress s b) = s := by
  have all : ∀ s : StWord, ∀ b : Bit, addressState (tableAddress s b) = s := by decide +kernel
  exact all s b

/-- The column of the address formed from a state and a bit is that bit. -/
theorem addressBit_tableAddress (s : StWord) (b : Bit) : addressBit (tableAddress s b) = b := by
  have all : ∀ s : StWord, ∀ b : Bit, addressBit (tableAddress s b) = b := by decide +kernel
  exact all s b

/-- Splitting a packed cell gives its fields back. -/
theorem unpackCell_packCell (c : Cell) : unpackCell (packCell c) = c := by
  have all : ∀ r : Bool, ∀ n : StWord,
      unpackCell (packCell { ready := r, next := n }) = { ready := r, next := n } := by decide +kernel
  exact all c.ready c.next

/-- A lookup in the block's table gives the cell of the row rules (40_transition_table.md R110). -/
theorem tableRead_eq_transition (s : StWord) (b : Bit) : tableRead s b = transition s b := by
  simp only [tableRead, tableReadFrom, transitionTable, addressState_tableAddress, addressBit_tableAddress,
    unpackCell_packCell]

/-- A command presented is what the coming edge samples, with `rst` low. -/
theorem presentCommand_sampled (c : CmdWord) (s : State) :
    sampleInputs (presentCommand c s) = some ({ rst := false, cmd := c }, { s with inputs := s.inputs.tail }) := rfl

end Sys2Proof.Machine
end

