-- ==== Sys2Proof/Laws/PerInstr.lean ====
section
/-! SUPPORT. Statements made for each command. TableRow: the encoded word lies in the command's row of
spec/opcode_table.json (its match under its mask), and in no other row. -/

namespace Sys2Proof.Laws.TableRow

/-- The mask of a command's row in spec/opcode_table.json. -/
def mask : Instr → CmdWord
  | .nop => 0b11#2
  | .reset => 0b11#2
  | .feed _ => 0b10#2

/-- The match value of a command's row in spec/opcode_table.json. -/
def pattern : Instr → CmdWord
  | .nop => 0b00#2
  | .reset => 0b01#2
  | .feed _ => 0b10#2

/-- The word of `i` is in the row of `i`, and a word is in that row only if it decodes to a command of that row. -/
def Statement (i : Instr) : Prop :=
  i.wellFormed = true ∧ encode i &&& mask i = pattern i
    ∧ ∀ c : CmdWord, c &&& mask i = pattern i → pattern (decode c) = pattern i

theorem nop : Statement .nop := by
  refine ⟨rfl, by decide, ?_⟩
  decide

theorem reset : Statement .reset := by
  refine ⟨rfl, by decide, ?_⟩
  decide

theorem feed (b : Bit) : Statement (.feed b) := by
  refine ⟨?_, ?_, ?_⟩
  · rfl
  · revert b; decide
  · show ∀ c : CmdWord, c &&& 0b10#2 = 0b10#2 → pattern (decode c) = 0b10#2
    decide

end Sys2Proof.Laws.TableRow
end

