-- ==== Sys2Proof/Laws/Step.lean ====
section
/-! SUPPORT. What a step can do, said once, and the run as the steps of its cycles. -/

namespace Sys2Proof.Machine

/-- The block's commands are those over its own table. -/
theorem execFrom_transitionTable (i : Instr) (s : State) : execFrom transitionTable i s = exec i s := by
  cases i <;> rfl

/-- The block's step is the step relation at its own table (10_state.md R38). -/
theorem stepFrom_transitionTable (s : State) : stepFrom transitionTable s = step s := by
  have same : execFrom transitionTable = exec := funext fun i => funext fun s => execFrom_transitionTable i s
  rw [stepFrom, step, same]

/-- An edge depends on the command's effect in the sampled state alone. -/
theorem edgeWith_cons (run : Instr → State → Host.Outcome State Fault Refusal) (v : StWord) (c : CycleInput)
    (cs : List CycleInput) :
    edgeWith run { st := v, inputs := c :: cs } =
      if c.rst then .next { st := 0#9, inputs := cs } else run (decode c.cmd) { st := v, inputs := cs } := rfl

/-- A step that answers a next state took one cycle's inputs, and either `rst` cleared the register or the command of the
cycle ran. -/
theorem step_eq_next_iff (s t : State) :
    step s = .next t ↔ ∃ c, s.inputs = c :: t.inputs
      ∧ ((c.rst = true ∧ t.st = 0#9)
        ∨ (c.rst = false ∧ exec (decode c.cmd) { s with inputs := t.inputs } = .next t)) := by
  obtain ⟨v, ins⟩ := s
  obtain ⟨v', ins'⟩ := t
  cases ins with
  | nil => simp [step, edgeWith, sampleInputs]
  | cons c rest =>
    have same : ∀ i, exec i { st := v, inputs := rest } = .next { st := v', inputs := ins' } → rest = ins' := by
      intro i h
      cases i <;> exact congrArg State.inputs (Host.Outcome.next.inj h)
    cases hr : c.rst with
    | true =>
      simp only [step, edgeWith_cons, hr, if_true, Host.Outcome.next.injEq, State.mk.injEq, List.cons.injEq]
      constructor
      · rintro ⟨rfl, rfl⟩; exact ⟨c, ⟨rfl, rfl⟩, .inl ⟨hr, rfl⟩⟩
      · rintro ⟨d, ⟨rfl, rfl⟩, ⟨-, rfl⟩ | ⟨h, -⟩⟩
        · exact ⟨rfl, rfl⟩
        · simp [hr] at h
    | false =>
      simp only [step, edgeWith_cons, hr, Bool.false_eq_true, if_false, List.cons.injEq]
      constructor
      · intro h
        obtain rfl := same _ h
        exact ⟨c, ⟨rfl, rfl⟩, .inr ⟨hr, h⟩⟩
      · rintro ⟨d, ⟨rfl, rfl⟩, ⟨h, -⟩ | ⟨-, h⟩⟩
        · simp [hr] at h
        · exact h

/-- One cycle of a run, when its step answers `t` and the rest of the run shows `o`. -/
theorem observeRun_cons (c : CycleInput) (cs : List CycleInput) (v : StWord) (t : State) (o : Observation)
    (hs : step { st := v, inputs := c :: cs } = .next t) (ho : observeRun cs t.st = .next o) :
    observeRun (c :: cs) v = .next (o.after c t) := by
  simp [observeRun, hs, ho]

/-- The bits fed by two lists of cycles one after the other. -/
@[simp] theorem bitsFed_append (cs ds : List CycleInput) : bitsFed (cs ++ ds) = bitsFed cs ++ bitsFed ds := by
  simp [bitsFed]

end Sys2Proof.Machine
end

