-- ==== Sys2Proof/Laws/System.lean ====
section
/-! SUPPORT. What a step of a system can do, said once. -/

namespace Sys2Proof.Machine

/-- A system that steps was not refused, its instances stepped, and nothing but they changed. -/
theorem System.stepFrom_eq_next_iff (T : Table) (nInst : Nat) (y z : System) :
    System.stepFrom T nInst y = .next z ↔
      y.refusal nInst = none ∧ stepAllFrom T y.insts = .next z.insts ∧ z.masters = y.masters := by
  obtain ⟨ss, ms⟩ := y
  obtain ⟨ts, ns⟩ := z
  cases hr : System.refusal nInst { insts := ss, masters := ms } with
  | some r => simp [System.stepFrom, hr]
  | none => cases ha : stepAllFrom T ss <;> simp [System.stepFrom, hr, ha, eq_comm]

/-- A system is not refused exactly if it holds the given number of instances, at least one, and no two masters drive the
same one. -/
theorem System.refusal_eq_none_iff (nInst : Nat) (y : System) :
    y.refusal nInst = none ↔ nInst ≠ 0 ∧ y.insts.length = nInst ∧ firstRepeat y.masters = none := by
  unfold System.refusal
  split_ifs <;> simp_all

/-- Instances step one by one. -/
theorem stepAllFrom_cons_eq_next_iff (T : Table) (s t : State) (ss ts : List State) :
    stepAllFrom T (s :: ss) = .next (t :: ts) ↔ stepFrom T s = .next t ∧ stepAllFrom T ss = .next ts := by
  cases hs : stepFrom T s <;> cases ha : stepAllFrom T ss <;> simp [stepAllFrom, hs, ha]

end Sys2Proof.Machine
end

