-- ==== Sys2Proof/Tests/Slice0.lean ====
section
/-! SUPPORT. Tests against the vectors of 95_test_vectors.md and the encodings of 30_encoding.md, and, for each statement
with hypotheses, a theorem that shows states and operands that meet them. -/

namespace Sys2Proof.Tests

open Sys2Proof Sys2Proof.Machine

/-- A state with one command on `cmd` and `rst = 0`. -/
def withCmd (v : StWord) (c : CmdWord) : State := { st := v, inputs := [{ rst := false, cmd := c }] }

/-- A cycle with the given `rst` and `cmd`. -/
def cyc (r : Bool) (c : CmdWord) : CycleInput := { rst := r, cmd := c }

/-! ## Well-formedness smoke: an ill-formed term for each check. A command has none, its operand being a bit by type. -/

theorem test_wf_refuses_a_wide_word : wordWellFormed 4 = false := by decide
theorem test_wf_refuses_feed_two : (AsmLine.feed 2).wellFormed = false := by decide
theorem test_wf_refuses_wide_feedbyte : (AsmLine.feedByte 256).wellFormed = false := by decide
theorem test_wf_refuses_wide_putbyte : (AsmLine.putByte 256).wellFormed = false := by decide

/-! ## Decoding, from words written out from 30_encoding.md R72 -/

theorem test_decode_nop : decode 0b00#2 = .nop := by decide
theorem test_decode_reset : decode 0b01#2 = .reset := by decide
theorem test_decode_feed_zero : decode 0b10#2 = .feed 0#1 := by decide
theorem test_decode_feed_one : decode 0b11#2 = .feed 1#1 := by decide
theorem test_decode_table_words :
    decodeTableWord 8 0 = some .nop ∧ decodeTableWord 8 1 = some .reset ∧ decodeTableWord 8 2 = some (.feed 0#1)
      ∧ decodeTableWord 8 3 = some (.feed 1#1) ∧ decodeTableWord 8 4 = none := by decide

/-! ## Commands (95_test_vectors.md sections 2.2 to 2.5) -/

/-- 2.2: `217, 00, 217`. -/
theorem test_nop_holds : nextOf (step (withCmd 217#9 0b00#2)) = some { st := 217#9, inputs := [] } := by decide
/-- 2.2: `434, 00`, ready with 0xB2. -/
theorem test_nop_keeps_outputs :
    (nextOf (step (withCmd 434#9 0b00#2))).map outputsOf = some { ready := true, byte := some 0xB2#8 } := by decide
/-- 2.3: `434, 01, 0`, not ready. -/
theorem test_reset_clears :
    (nextOf (step (withCmd 434#9 0b01#2))).map (fun t => (t.st, outputsOf t))
      = some (0#9, { ready := false, byte := none }) := by decide
/-- 2.3: `1, 01, 0`: the alias goes to 0, not to itself. -/
theorem test_reset_from_alias : (nextOf (step (withCmd 1#9 0b01#2))).map State.st = some 0#9 := by decide
/-- 2.4: `217, 10, 434`, ready with 0xB2. -/
theorem test_feed_completes_a_byte :
    (nextOf (step (withCmd 217#9 0b10#2))).map (fun t => (t.st, outputsOf t))
      = some (434#9, { ready := true, byte := some 0xB2#8 }) := by decide
/-- 2.4: `300, 11, 300`, ready with 0x2C: the bit is discarded. -/
theorem test_feed_terminal_discards :
    (nextOf (step (withCmd 300#9 0b11#2))).map (fun t => (t.st, outputsOf t))
      = some (300#9, { ready := true, byte := some 0x2C#8 }) := by decide
/-- 2.5: `217, rst 1, 10, 0`: the FEED is ignored. -/
theorem test_rst_ignores_the_feed :
    nextOf (step { st := 217#9, inputs := [cyc true 0b10#2, cyc false 0b00#2] })
      = some { st := 0#9, inputs := [cyc false 0b00#2] } := by decide
/-- 2.4: `1, 11, 3` and `0, 10, 2`: row 0 is not the shift of 0. -/
theorem test_feed_from_both_starts :
    tableRead 1#9 1#1 = { ready := false, next := 3#9 } ∧ tableRead 0#9 0#1 = { ready := false, next := 2#9 } := by decide

/-- 2.4: `0, 11, 3`, as the first command after reset, placed by its table bits. -/
theorem test_placed_feed_runs_after_reset :
    nextOf (step (State.reset.withFetchWord 8 3)) = some { st := 3#9, inputs := [] } := by decide

/-! ## The whole table (95_test_vectors.md section 3: the two digests of the 1024-word image) -/

/-- The sum of `weight a * word(a)` over all addresses. -/
def tableDigest (weight : Nat → Nat) : Nat :=
  (List.range 1024).foldl (fun acc a => acc + weight a * (transitionTable (BitVec.ofNat 10 a)).toNat) 0

theorem test_table_word_sum : tableDigest (fun _ => 1) = 720388 := by decide +kernel
theorem test_table_weighted_sum : tableDigest (fun a => a + 1) % 2 ^ 32 = 453082758 := by decide +kernel

/-! ## State coding (2.7), software calls (2.6), two instances (2.8), notation (S1, P1) -/

theorem test_decode_states :
    decodeState 1#9 = (0, 0) ∧ decodeState 11#9 = (3, 3) ∧ decodeState 217#9 = (7, 89)
      ∧ decodeState 255#9 = (7, 127) ∧ decodeState 434#9 = (8, 178) := by decide

/-- 2.6: `feed(1)` from 217 returns (true, 0xB3); `feed(2)` from 5 raises; `feed(0)` from 512 raises; `feed(7)` from 600. -/
theorem test_software_calls :
    txnCall { st := 217, faults := [] } (.feed 1)
        = ({ st := 435, faults := [] }, .fed { ready := true, byte := some 0xB3#8 })
      ∧ txnCall { st := 5, faults := [] } (.feed 2)
        = ({ st := 5, faults := [.invalidBit 2] }, .raised (.invalidBit 2))
      ∧ txnCall { st := 512, faults := [] } (.feed 0)
        = ({ st := 512, faults := [.invalidState 512] }, .raised (.invalidState 512))
      ∧ txnCall { st := 600, faults := [] } (.feed 7)
        = ({ st := 600, faults := [.invalidBit 7] }, .raised (.invalidBit 7)) := by decide

/-- 2.6: `reset()` from 434 returns nothing, goes to 0, and leaves a recorded fault. -/
theorem test_software_reset_keeps_the_record :
    txnCall { st := 434, faults := [.invalidBit 255] } .reset
      = ({ st := 0, faults := [.invalidBit 255] }, .nothing) := by decide

/-- 2.8, cycle 1: instance 0 takes FEED 1 from 3, instance 1 FEED 0 from 0. -/
theorem test_two_instances :
    (nextOf (System.step 2 { insts := [withCmd 3#9 0b11#2, withCmd 0#9 0b10#2], masters := [0, 1] })).map
        (fun z => z.insts.map State.st) = some [7#9, 2#9] := by decide

/-- P1: `FEEDBYTE 0x01` is `10 10 10 10 10 10 10 11`; a comment and a blank line assemble to nothing. -/
theorem test_assemble_lines :
    assembleLine ['F', 'E', 'E', 'D', 'B', 'Y', 'T', 'E', ' ', '0', 'x', '0', '1', ' ', ';', 'c']
        = .ok [.feed 0#1, .feed 0#1, .feed 0#1, .feed 0#1, .feed 0#1, .feed 0#1, .feed 0#1, .feed 1#1]
      ∧ assemble ['I', 'D', 'L', 'E', ' ', '2', '\n', ';', '\n', '\n', 'F', 'E', 'E', 'D', ' ', '1']
        = .ok [.nop, .nop, .feed 1#1] := by decide

theorem test_assembler_refuses :
    assembleLine ['F', 'E', 'E', 'D', ' ', '2'] = .error (.badBit ['2'])
      ∧ assembleLine ['F', 'E', 'E', 'D', 'B', 'Y', 'T', 'E', ' ', '2', '5', '6'] = .error (.outOfRange (.feedByte 256))
      ∧ assembleLine ['I', 'D', 'L', 'E', ' ', 'x'] = .error (.badNumber ['x'])
      ∧ assembleLine ['F', 'E', 'E', 'D', ' ', '0', ' ', '1'] = .error (.unknownLine [['F', 'E', 'E', 'D'], ['0'], ['1']])
      ∧ assembleLine ['J', 'M', 'P'] = .error (.unknownLine [['J', 'M', 'P']]) := by decide

/-! ## Witnesses: the hypotheses of the statements can be met, at the ends of their ranges -/

theorem witness_CommandWordsDecodeAsTabled :
    (0b10#2).getLsbD 1 = true ∧ (0b00#2).getLsbD 1 = false ∧ (0b00#2).getLsbD 0 = false
      ∧ (0b01#2).getLsbD 1 = false ∧ (0b01#2).getLsbD 0 = true := by decide
theorem witness_CommandsDecodeBackFromTheirWords : (Instr.feed 1#1).wellFormed = true ∧ 2 ≤ 2 := by decide
theorem witness_WiderNumbersAreNoCommand : 4 ≤ 4 ∧ 4 < 2 ^ 3 := by decide
theorem witness_AssemblerReadsTheCommandLines :
    (['2'] ≠ ([] : List Char) ∧ (∀ c ∈ ['2'], c ≠ ' ' ∧ c ≠ '\t' ∧ c ≠ ';') ∧ ['2'] ≠ ['0'] ∧ ['2'] ≠ ['1'])
      ∧ (['0'] ≠ ([] : List Char) ∧ ∀ c ∈ ['0'] ++ ['1'], c ≠ ' ' ∧ c ≠ '\t' ∧ c ≠ ';')
      ∧ (∀ c ∈ ['N', 'O', 'P', ' '], c ≠ ';')
      ∧ (∀ c ∈ ['N', 'O', 'P'], c ≠ '\n') ∧ assembleLine ['N', 'O', 'P'] = .ok [.nop]
      ∧ assemble ['F', 'E', 'E', 'D', ' ', '1'] = .ok [.feed 1#1] :=
  ⟨⟨by decide, by simp, by decide, by decide⟩, ⟨by decide, by simp⟩, by simp, by simp, by decide, by decide⟩
theorem witness_start_states : isStart 0#9 = true ∧ isStart 1#9 = true := by decide
theorem witness_StartRowsGoToTheOneBitStates : (0#9).toNat < 256 ∧ (255#9).toNat < 256 := by decide
theorem witness_IntermediateRowsShiftTheBitIn :
    (2 ≤ (2#9).toNat ∧ (2#9).toNat ≤ 127) ∧ 2 ≤ (127#9).toNat ∧ (127#9).toNat ≤ 127 := by decide
theorem witness_CompletingRowsReportTheByte :
    (128 ≤ (128#9).toNat ∧ (128#9).toNat ≤ 255) ∧ 128 ≤ (255#9).toNat ∧ (255#9).toNat ≤ 255 := by decide
theorem witness_TerminalRowsPointToThemselves : 256 ≤ (256#9).toNat ∧ 256 ≤ (511#9).toNat := by decide
theorem witness_TableEntriesStayInRange : (0 < 512 ∧ 0 < 2) ∧ 511 < 512 ∧ 1 < 2 ∧ 256 ≤ 511 := by decide

theorem witness_ConformingRealisationsRunAlike_table : transitionTable.conforms := by
  intro s b
  simp only [transitionTable, addressState_tableAddress, addressBit_tableAddress]
theorem witness_ConformingRealisationsRunAlike_columns :
    ∃ rows : StWord → CellWord × CellWord,
      ∀ s, rows s = (packCell (transition s 0#1), packCell (transition s 1#1)) := ⟨_, fun _ => rfl⟩
theorem witness_ConformingRealisationsRunAlike_nexts :
    ∃ nexts : CellAddr → StWord, ∀ s b, nexts (tableAddress s b) = (transition s b).next :=
  ⟨fun a => (transition (addressState a) (addressBit a)).next, fun s b => by
    simp only [addressState_tableAddress, addressBit_tableAddress]⟩

theorem witness_OnlyFeedReadsTheTableAndOneCell :
    (∃ T U : Table, T (tableAddress State.reset.st 0#1) = U (tableAddress State.reset.st 0#1))
      ∧ ∃ T U : Table, cellNext (T (tableAddress State.reset.st 0#1)) ≠ cellNext (U (tableAddress State.reset.st 0#1)) :=
  ⟨⟨transitionTable, transitionTable, rfl⟩, fun _ => 0#10, fun _ => 1#10, by decide⟩

theorem witness_FeedPushesOneBitThroughTheTable :
    ((0#9 = 0#9 ∨ 0#9 = 1#9) ∧ (1#9 = 0#9 ∨ 1#9 = 1#9)) ∧ (2 ≤ (2#9).toNat ∧ (127#9).toNat ≤ 127)
      ∧ (128 ≤ (128#9).toNat ∧ (255#9).toNat ≤ 255) ∧ 256 ≤ (256#9).toNat := by decide
theorem witness_CommandsChangeOnlyTheRegister :
    nextOf (exec (.feed 1#1) State.reset) = some { st := 3#9, inputs := [] }
      ∧ nextOf (exec .nop State.reset) = some State.reset := by decide

/-- Meets the hypotheses of StepRunsTheDecodedCommand: a cycle with `rst = 0` and the word of a command. -/
theorem witness_StepRunsTheDecodedCommand :
    (withCmd 0#9 0b11#2).inputs = cyc false 0b11#2 :: [] ∧ (cyc false 0b11#2).rst = false
      ∧ (cyc false 0b11#2).cmd = encode (.feed 1#1) := by decide
/-- Meets the hypotheses of StepTakesTheTableAsAnArgument: a cycle with `rst = 1`, and one with `rst = 0` and the word of a
FEED. -/
theorem witness_StepTakesTheTableAsAnArgument :
    (cyc true 0b11#2).rst = true ∧ (cyc false 0b11#2).rst = false ∧ (cyc false 0b11#2).cmd = 1#1 ++ 1#1 := by decide
/-- Meets the hypotheses of SystemResetWinsOverTheCommand and of the last clause of OutputsFollowTheRegister. -/
theorem witness_SystemResetWinsOverTheCommand :
    ({ st := 5#9, inputs := [cyc true 0b11#2] } : State).inputs = cyc true 0b11#2 :: []
      ∧ (cyc true 0b11#2).rst = true ∧ [cyc true 0b11#2] ≠ [] ∧ ∀ c ∈ [cyc true 0b11#2], c.rst = true := by decide
theorem witness_StepStopsOnlyAtTheEndOfTheRun : State.reset.inputs = [] ∧ (withCmd 0#9 0b00#2).inputs ≠ [] := by decide
theorem witness_PlacedCommandRunsNext : 2 ≤ 2 ∧ 2 ≤ 8 := by decide
theorem witness_AliasStateIsNeverEntered :
    State.reset.st ≠ 1#9 ∧ nextOf (step (withCmd 0#9 0b01#2)) = some State.reset := by decide
/-- Meets the hypotheses of StepKeepsTheFedHistory, and of the first clause of ReadyRisesOnTheEighthBitAndFallsOnReset at
its boundary: seven bits fed, then the 8th. -/
theorem witness_StepKeepsTheFedHistory :
    decodeState 217#9 = (min [1#1, 0#1, 1#1, 1#1, 0#1, 0#1, 1#1].length 8,
        bitsValue ([1#1, 0#1, 1#1, 1#1, 0#1, 0#1, 1#1].take 8))
      ∧ nextOf (step (withCmd 217#9 0b10#2)) = some { st := 434#9, inputs := [] }
      ∧ isClearing (cyc false 0b10#2) = false ∧ (bitFed (cyc false 0b10#2)).isSome = true := by decide
/-- The other clauses of ReadyRisesOnTheEighthBitAndFallsOnReset: ready and not cleared, cleared, and neither fed nor
cleared. -/
theorem witness_ReadyRisesOnTheEighthBitAndFallsOnReset :
    (readyO { st := 256#9, inputs := [] } = true ∧ isClearing (cyc false 0b11#2) = false)
      ∧ (isClearing (cyc false 0b01#2) = true ∧ isClearing (cyc true 0b00#2) = true)
      ∧ isClearing (cyc false 0b00#2) = false ∧ bitFed (cyc false 0b00#2) = none := by decide
theorem witness_OutputsFollowTheRegister :
    readyO { st := 256#9, inputs := [] } = true ∧ readyO { st := 255#9, inputs := [] } = false := by decide
theorem witness_StatesDecodeToCountAndBuffer :
    (1 ≤ 1 ∧ 1 ≤ 7 ∧ 1 < 2 ^ 1) ∧ (1 ≤ 7 ∧ 7 ≤ 7 ∧ 127 < 2 ^ 7)
      ∧ (2 ≤ (2#9).toNat ∧ (255#9).toNat ≤ 255) ∧ 256 ≤ (256#9).toNat := by decide
theorem witness_StateCodingRoundTrips :
    legalPair 0 0 = true ∧ legalPair 7 127 = true ∧ legalPair 8 255 = true ∧ legalPair 0 1 = false ∧ 0#9 ≠ 1#9 := by decide
theorem witness_StatesFallIntoThreeClasses :
    isIntermediate 2#9 = true ∧ isIntermediate 255#9 = true ∧ isTerminal 256#9 = true := by decide
theorem witness_AliasStartsShowTheSame :
    ∃ c ∈ [cyc false 0b10#2], isClearing c = true ∨ (bitFed c).isSome = true := ⟨_, List.mem_singleton.mpr rfl, by decide⟩
/-- Meets the hypotheses of FirstBitFedIsMostSignificant and ByteCompletesAtTheEighthFeed, an idle cycle among the feeds. -/
theorem witness_FirstBitFedIsMostSignificant :
    isStart 1#9 = true ∧ (∀ c ∈ cyc false 0b00#2 :: cyclesOf (feedByte 0xB2#8), isClearing c = false)
      ∧ bitsFed (cyc false 0b00#2 :: cyclesOf (feedByte 0xB2#8)) = [1#1, 0#1, 1#1, 1#1, 0#1, 0#1, 1#1, 0#1] := by decide
/-- Meets the hypotheses of PartialByteIsHeldAndNeverEmitted at 1 and at 7 bits. -/
theorem witness_PartialByteIsHeldAndNeverEmitted :
    (∀ c ∈ cyclesOf ((feedByte 0xB2#8).take 7), isClearing c = false)
      ∧ (bitsFed (cyclesOf ((feedByte 0xB2#8).take 7))).length = 7
      ∧ (bitsFed (cyclesOf ((feedByte 0xB2#8).take 1))).length = 1 ∧ isClearing (cyc true 0b11#2) = true := by decide
/-- Meets the hypotheses of UnresetTerminalRepeatsItsByte and CompletedByteWaitsForItsReset. -/
theorem witness_UnresetTerminalRepeatsItsByte :
    isTerminal 256#9 = true ∧ isTerminal 511#9 = true
      ∧ ∀ c ∈ [cyc false 0b11#2, cyc false 0b00#2], isClearing c = false := by decide
theorem witness_ResetForgetsTheHistory : isClearing (cyc false 0b01#2) = true ∧ isClearing (cyc true 0b10#2) = true := by decide
/-- A dutiful run from a ready state: RESET, two feeds. -/
theorem witness_DutifulCallerLosesNoBit :
    keepsDuties [cyc false 0b01#2, cyc false 0b11#2, cyc false 0b10#2] 434#9 = true := by decide
theorem witness_InvalidBitIsRaisedAndWritesNothing : 2 ≤ 2 ∧ (1 < 2 ∧ 511 < 512) := by decide
theorem witness_InvalidStateIsRaisedAndNeverLeft :
    (512 ≤ 512 ∧ 1 < 2) ∧ (511 < 512 ∧ feedTxn 511 0 = .ok 511) ∧ (∀ f ∈ [Fault.invalidBit 2], f.isFatal = false)
      ∧ Fault.invalidState 512 ∈ [Fault.invalidState 512] := by decide
theorem witness_SimultaneousEventsHaveTheirPriority : 512 ≤ 600 ∧ 2 ≤ 7 ∧ encode .reset = 0b01#2 := by decide
theorem witness_SoftwareCallsAreOneCycle :
    (∀ f ∈ TxnState.constructed.faults, f.isFatal = false) ∧ TxnState.constructed.st < 512 ∧ 1 < 2 ∧ 2 ≤ 2
      ∧ (cyc false 0b01#2).cmd = 0b01#2 ∧ (cyc true 0b11#2).rst = true
      ∧ readyO { st := 3#9, inputs := [] } = false := by decide
/-- Meets the hypotheses of InstancesStepIndependently and WellDrivenSystemsStep. -/
theorem witness_InstancesStepIndependently :
    (nextOf (System.step 1 { insts := [withCmd 3#9 0b11#2], masters := [0] })).isSome = true
      ∧ 1 ≤ 1 ∧ [withCmd 3#9 0b11#2].length = 1 ∧ [0].Nodup ∧ (∀ s ∈ [withCmd 3#9 0b11#2], s.inputs ≠ [])
      ∧ [withCmd 3#9 0b11#2][0]? = some (withCmd 3#9 0b11#2) := by decide
/-- Two systems of different size that hold the same instance at different places, and both run. -/
theorem witness_InstanceLearnsNothingOfOthers :
    (nextOf (System.run 1 1 { insts := [withCmd 3#9 0b11#2], masters := [0] })).isSome = true
      ∧ (nextOf (System.run 2 1 { insts := [withCmd 5#9 0b01#2, withCmd 3#9 0b11#2], masters := [1] })).isSome = true
      ∧ [withCmd 3#9 0b11#2][0]? = [withCmd 5#9 0b01#2, withCmd 3#9 0b11#2][1]? := by decide
theorem witness_TwoMastersOnOneInstanceAreRefused :
    (1 ≤ 1 ∧ [withCmd 3#9 0b11#2].length = 1 ∧ ¬ [0, 0].Nodup)
      ∧ 1 ≤ 2 ∧ [withCmd 3#9 0b11#2].length ≠ 2 := by decide

end Sys2Proof.Tests
end

section
/-! PROOFS. The coding of `(bitCount, buffer)` in a register value (10_state.md R22, R23): one equation for each class of
states, the legal pairs by class, and the round trips. -/

namespace Sys2Proof.Machine

/-! ### The marker form `2^k + v` of an intermediate state -/

/-- A marker bit at 1..7 with a buffer below it is the number of an intermediate state. -/
theorem marker_add_bounds {k v : Nat} (hk : 1 ≤ k) (hk7 : k ≤ 7) (hv : v < 2 ^ k) :
    2 ≤ 2 ^ k + v ∧ 2 ^ k + v ≤ 255 := by
  have low : 2 ^ 1 ≤ 2 ^ k := Nat.pow_le_pow_right (by decide) hk
  have high : 2 ^ k ≤ 2 ^ 7 := Nat.pow_le_pow_right (by decide) hk7
  omega

/-- The class tests of the model's branches at such a number. -/
theorem marker_add_class {k v : Nat} (hk : 1 ≤ k) (hk7 : k ≤ 7) (hv : v < 2 ^ k) :
    ¬ 2 ^ k + v < Config.startStates ∧ 2 ^ k + v < Config.firstTerminal := by
  obtain ⟨h2, h255⟩ := marker_add_bounds hk hk7 hv
  exact ⟨Nat.not_lt.2 h2, Nat.lt_succ_of_le h255⟩

/-- The class tests of the model's branches at the number of a terminal state. -/
theorem terminal_class {n : Nat} (h : 256 ≤ n) : ¬ n < Config.startStates ∧ ¬ n < Config.firstTerminal := by
  simp only [Config.startStates, Config.firstTerminal]
  omega

/-- The number of an intermediate state is its highest bit and the buffer below it. -/
theorem exists_eq_marker_add {n : Nat} (h2 : 2 ≤ n) (h255 : n ≤ 255) :
    ∃ k v, 1 ≤ k ∧ k ≤ 7 ∧ v < 2 ^ k ∧ n = 2 ^ k + v := by
  have hn : n ≠ 0 := by omega
  have top : 2 ^ n.log2 ≤ n := Nat.log2_self_le hn
  have below : n < 2 ^ (n.log2 + 1) := Nat.lt_log2_self
  have hk : 1 ≤ n.log2 := (Nat.le_log2 hn).2 h2
  have hk7 : n.log2 < 8 := (Nat.log2_lt hn).2 (by omega)
  exact ⟨n.log2, n - 2 ^ n.log2, hk, by omega, by omega, by omega⟩

/-- The highest set bit of `2^k + v` is bit `k`. -/
theorem log2_marker_add {k v : Nat} (hv : v < 2 ^ k) : (2 ^ k + v).log2 = k := by
  have pos : 0 < 2 ^ k := Nat.two_pow_pos k
  exact (Nat.log2_eq_iff (by omega)).2 ⟨by omega, by omega⟩

theorem bitCountOf_marker_add {k v : Nat} (hk : 1 ≤ k) (hk7 : k ≤ 7) (hv : v < 2 ^ k) : bitCountOf (2 ^ k + v) = k := by
  obtain ⟨notStart, notTerminal⟩ := marker_add_class hk hk7 hv
  rw [bitCountOf, if_neg notStart, if_pos notTerminal, log2_marker_add hv]

theorem bufferOf_marker_add {k v : Nat} (hk : 1 ≤ k) (hk7 : k ≤ 7) (hv : v < 2 ^ k) : bufferOf (2 ^ k + v) = v := by
  obtain ⟨notStart, notTerminal⟩ := marker_add_class hk hk7 hv
  rw [bufferOf, if_neg notStart, if_pos notTerminal, log2_marker_add hv, Nat.add_sub_cancel_left]

/-! ### `decodeState` on each class of states -/

theorem start_or_intermediate_or_terminal (s : StWord) :
    s.toNat < 2 ∨ (2 ≤ s.toNat ∧ s.toNat ≤ 255) ∨ 256 ≤ s.toNat := by omega

theorem decodeState_of_start {s : StWord} (h : s.toNat < 2) : decodeState s = (0, 0) := by
  simp [decodeState, bitCountOf, bufferOf, Config.startStates, h]

theorem decodeState_of_marker_add {s : StWord} {k v : Nat} (hk : 1 ≤ k) (hk7 : k ≤ 7) (hv : v < 2 ^ k)
    (hs : s.toNat = 2 ^ k + v) : decodeState s = (k, v) := by
  rw [decodeState, hs, bitCountOf_marker_add hk hk7 hv, bufferOf_marker_add hk hk7 hv]

theorem decodeState_of_terminal {s : StWord} (h : 256 ≤ s.toNat) : decodeState s = (8, s.toNat - 256) := by
  obtain ⟨notStart, terminal⟩ := terminal_class h
  rw [decodeState, bitCountOf, bufferOf, if_neg notStart, if_neg terminal, if_neg notStart, if_neg terminal,
    Config.accWidth, Config.firstTerminal]

/-! ### `encodeState` on the legal pairs -/

/-- The legal pairs are the empty accumulator, one to seven bits, and the complete byte (10_state.md R23). -/
theorem legalPair_iff (k v : Nat) :
    legalPair k v = true ↔ (k = 0 ∧ v = 0) ∨ (1 ≤ k ∧ k ≤ 7 ∧ v < 2 ^ k) ∨ (k = 8 ∧ v ≤ 255) := by
  simp only [legalPair, Bool.or_eq_true, Bool.and_eq_true, decide_eq_true_eq]
  rw [Config.accWidth]
  by_cases full : k = 8
  · subst full; omega
  · omega

@[simp] theorem encodeState_zero (v : Nat) : encodeState 0 v = 0#9 := rfl

theorem encodeState_toNat_of_partial {k v : Nat} (hk : 1 ≤ k) (hk7 : k ≤ 7) (hv : v < 2 ^ k) :
    (encodeState k v).toNat = 2 ^ k + v := by
  obtain ⟨-, h255⟩ := marker_add_bounds hk hk7 hv
  have notFull : k < Config.accWidth := Nat.lt_succ_of_le hk7
  rw [encodeState, stateNumber, if_neg (by omega), if_pos notFull, BitVec.toNat_ofNat, Nat.mod_eq_of_lt (by omega)]

theorem encodeState_toNat_of_complete {v : Nat} (hv : v ≤ 255) : (encodeState 8 v).toNat = 256 + v := by
  change (256 + v) % 512 = 256 + v
  omega

/-! ### The round trips -/

/-- A legal pair is read back from the state that encodes it. -/
theorem decodeState_encodeState {k v : Nat} (h : legalPair k v = true) : decodeState (encodeState k v) = (k, v) := by
  obtain ⟨rfl, rfl⟩ | ⟨hk, hk7, hv⟩ | ⟨rfl, hv⟩ := (legalPair_iff k v).1 h
  · exact decodeState_of_start (by decide)
  · exact decodeState_of_marker_add hk hk7 hv (encodeState_toNat_of_partial hk hk7 hv)
  · have number := encodeState_toNat_of_complete hv
    rw [decodeState_of_terminal (by omega), number, Nat.add_sub_cancel_left]

/-- Every state but 1, which decodes like 0, encodes the pair it decodes to. -/
theorem encodeState_decodeState {s : StWord} (h : s ≠ 1#9) : encodeState (decodeState s).1 (decodeState s).2 = s := by
  have bound : s.toNat < 512 := s.isLt
  have notOne : s.toNat ≠ 1 := BitVec.toNat_ne.1 h
  apply BitVec.eq_of_toNat_eq
  obtain start | ⟨h2, h255⟩ | terminal := start_or_intermediate_or_terminal s
  · rw [decodeState_of_start start, encodeState_zero, BitVec.toNat_zero]
    omega
  · obtain ⟨k, v, hk, hk7, hv, number⟩ := exists_eq_marker_add h2 h255
    rw [decodeState_of_marker_add hk hk7 hv number, encodeState_toNat_of_partial hk hk7 hv, number]
  · rw [decodeState_of_terminal terminal, encodeState_toNat_of_complete (by omega)]
    omega

/-- Settles O33: the numbers of the legal pairs, and the two round trips, each by the class of the state. -/
theorem stateCodingRoundTrips : Obligations.StateCodingRoundTrips := by
  have oneIsEmpty : decodeState 1#9 = (0, 0) := decodeState_of_start (by decide)
  refine ⟨encodeState_zero 0, fun _ _ => encodeState_toNat_of_partial, fun _ => encodeState_toNat_of_complete,
    fun _ _ => decodeState_encodeState, fun _ => encodeState_decodeState, oneIsEmpty, ?_⟩
  rw [oneIsEmpty, encodeState_zero]

end Sys2Proof.Machine
end

section
/-! PROOFS. The state classes, the edges of the table by class (40_transition_table.md R101 to R104), and their sizes
(10_state.md R24). -/

namespace Sys2Proof.Machine

theorem isStart_iff (s : StWord) : isStart s = true ↔ s.toNat < 2 := decide_eq_true_iff

theorem isIntermediate_iff (s : StWord) : isIntermediate s = true ↔ 2 ≤ s.toNat ∧ s.toNat < 256 := by
  rw [isIntermediate, Bool.and_eq_true, decide_eq_true_iff, decide_eq_true_iff, Config.startStates, Config.firstTerminal]

theorem isTerminal_iff (s : StWord) : isTerminal s = true ↔ 256 ≤ s.toNat := decide_eq_true_iff

/-! ### The rows of the table by class -/

theorem tableRead_of_start {s : StWord} (h : s.toNat < 2) (b : Bit) :
    tableRead s b = { ready := false, next := BitVec.ofNat 9 (2 + b.toNat) } := by
  simp [tableRead_eq_transition, transition, tableEntry, Config.startStates, h]

/-- An intermediate row shifts the bit in below the marker, and the byte completes when the marker reaches bit 8. -/
theorem tableEntry_of_intermediate {n : Nat} (h2 : 2 ≤ n) (h255 : n ≤ 255) (b : Nat) :
    tableEntry n b = (decide (128 ≤ n), 2 * n + b) := by
  obtain ⟨k, v, hk, hk7, hv, rfl⟩ := exists_eq_marker_add h2 h255
  obtain ⟨notStart, notTerminal⟩ := marker_add_class hk hk7 hv
  rw [tableEntry, if_neg notStart, if_pos notTerminal, bitCountOf_marker_add hk hk7 hv, bufferOf_marker_add hk hk7 hv]
  dsimp only
  obtain short | rfl : k ≤ 6 ∨ k = 7 := by omega
  · have high : 2 ^ k ≤ 2 ^ 6 := Nat.pow_le_pow_right (by decide) short
    have notFull : k + 1 < Config.accWidth := Nat.succ_lt_succ (Nat.lt_succ_of_le short)
    rw [if_pos notFull, decide_eq_false (by omega), Nat.pow_succ]
    exact congrArg (Prod.mk false) (by omega)
  · have full : ¬ 7 + 1 < Config.accWidth := Nat.lt_irrefl 8
    rw [if_neg full, decide_eq_true (by omega), Config.firstTerminal]
    exact congrArg (Prod.mk true) (by omega)

theorem tableRead_of_intermediate {s : StWord} (h2 : 2 ≤ s.toNat) (h255 : s.toNat ≤ 255) (b : Bit) :
    tableRead s b = { ready := decide (128 ≤ s.toNat), next := BitVec.ofNat 9 (2 * s.toNat + b.toNat) } := by
  simp only [tableRead_eq_transition, transition, tableEntry_of_intermediate h2 h255]

theorem tableRead_next_toNat_of_intermediate {s : StWord} (h2 : 2 ≤ s.toNat) (h255 : s.toNat ≤ 255) (b : Bit) :
    (tableRead s b).next.toNat = 2 * s.toNat + b.toNat := by
  have bit : b.toNat < 2 := b.isLt
  rw [tableRead_of_intermediate h2 h255, BitVec.toNat_ofNat]
  omega

theorem tableRead_of_terminal {s : StWord} (h : 256 ≤ s.toNat) (b : Bit) :
    tableRead s b = { ready := true, next := s } := by
  obtain ⟨notStart, terminal⟩ := terminal_class h
  simp [tableRead_eq_transition, transition, tableEntry, notStart, terminal]

/-- The two edges of an intermediate state lead to two different states, neither of them itself (10_state.md R24). -/
theorem tableRead_next_of_intermediate_ne {s : StWord} (h2 : 2 ≤ s.toNat) (h255 : s.toNat ≤ 255) :
    (tableRead s 0#1).next ≠ (tableRead s 1#1).next ∧ ∀ b, (tableRead s b).next ≠ s := by
  have number := tableRead_next_toNat_of_intermediate h2 h255
  refine ⟨BitVec.toNat_ne.2 ?_, fun b => BitVec.toNat_ne.2 ?_⟩
  · simp [number]
  · rw [number]; omega

/-! ### The sizes of the classes -/

/-- How many numbers below `n` lie in `lo .. hi - 1`. -/
theorem countP_range_interval (lo hi n : Nat) :
    (List.range n).countP (fun m => decide (lo ≤ m ∧ m < hi)) = min n hi - min n lo := by
  induction n with
  | zero => simp
  | succ n ih =>
    rw [List.range_succ, List.countP_append, ih, List.countP_singleton]
    simp only [decide_eq_true_eq]
    split <;> omega

/-- A class of states that is the interval `lo .. hi - 1` has `hi - lo` states. -/
theorem countP_states_of_interval {p : StWord → Bool} {lo hi : Nat} (hhi : hi ≤ 512) (hlo : lo ≤ 512)
    (h : ∀ s, p s = true ↔ lo ≤ s.toNat ∧ s.toNat < hi) :
    (List.range 512).countP (fun n => p (BitVec.ofNat 9 n)) = hi - lo := by
  have same : ∀ n ∈ List.range 512, p (BitVec.ofNat 9 n) = true ↔ decide (lo ≤ n ∧ n < hi) = true := by
    intro n hn
    rw [h, BitVec.toNat_ofNat, Nat.mod_eq_of_lt (List.mem_range.1 hn), decide_eq_true_iff]
  rw [List.countP_congr same, countP_range_interval, Nat.min_eq_right hhi, Nat.min_eq_right hlo]

/-- Settles O34: each class is an interval, and its edges are those of its rows of the table. -/
theorem statesFallIntoThreeClasses : Obligations.StatesFallIntoThreeClasses := by
  refine ⟨fun s => ⟨?_, ?_, isTerminal_iff s⟩,
    countP_states_of_interval (lo := 0) (hi := 2) (by decide) (by decide) fun s => ?_,
    countP_states_of_interval (by decide) (by decide) isIntermediate_iff,
    countP_states_of_interval (lo := 256) (hi := 512) (by decide) (by decide) fun s => ?_,
    fun s intermediate => ?_, fun s terminal => ?_⟩
  · rw [isStart_iff]; omega
  · rw [isIntermediate_iff]; omega
  · rw [isStart_iff]; omega
  · rw [isTerminal_iff]; exact (and_iff_left s.isLt).symm
  · obtain ⟨h2, h256⟩ := (isIntermediate_iff s).1 intermediate
    obtain ⟨k, v, hk, hk7, hv, number⟩ := exists_eq_marker_add h2 (by omega)
    obtain ⟨edgesDiffer, leave⟩ := tableRead_next_of_intermediate_ne h2 (by omega)
    rw [decodeState_of_marker_add hk hk7 hv number]
    exact ⟨hk, hk7, edgesDiffer, leave _, leave _⟩
  · have h256 := (isTerminal_iff s).1 terminal
    rw [decodeState_of_terminal h256]
    exact ⟨rfl, fun b => by rw [tableRead_of_terminal h256]⟩

end Sys2Proof.Machine
end

section
/-! PROOFS. The outputs as functions of the register (10_state.md R33, R34), and the effects of the commands and of `rst`
they are seen after. -/

namespace Sys2Proof.Machine

theorem readyFlag_eq_decide (s : StWord) : readyFlag s = decide (256 ≤ s.toNat) := s.msb_eq_decide

/-- The ready bit stored in a cell is the ready flag of its next state (40_transition_table.md R106). -/
theorem tableRead_ready (s : StWord) (b : Bit) : (tableRead s b).ready = readyFlag (tableRead s b).next := by
  have bit : b.toNat < 2 := b.isLt
  rw [readyFlag_eq_decide]
  obtain start | ⟨h2, h255⟩ | terminal := start_or_intermediate_or_terminal s
  · rw [tableRead_of_start start, BitVec.toNat_ofNat]
    exact (decide_eq_false (by omega)).symm
  · rw [tableRead_next_toNat_of_intermediate h2 h255, tableRead_of_intermediate h2 h255, decide_eq_decide]
    omega
  · rw [tableRead_of_terminal terminal, decide_eq_true terminal]

/-- While the ready flag is set, the completed byte is `st - 256`. -/
theorem completedByte_eq_sub {s : StWord} (h : readyFlag s = true) : completedByte s = BitVec.ofNat 8 (s.toNat - 256) := by
  rw [readyFlag_eq_decide, decide_eq_true_iff] at h
  apply BitVec.eq_of_toNat_eq
  rw [completedByte, BitVec.extractLsb'_toNat, BitVec.toNat_ofNat, Nat.shiftRight_zero]
  omega

theorem byteO_of_ready {s : State} (h : readyO s = true) : byteO s = some (completedByte s.st) := if_pos h

theorem byteO_of_not_ready {s : State} (h : readyO s = false) : byteO s = none := by simp [byteO, h]

theorem readyO_of_st_zero {s : State} (h : s.st = 0#9) : readyO s = false := by
  rw [readyO, h, readyFlag, BitVec.getLsbD_zero]

@[simp] theorem readyO_feedBit (b : Bit) (s : State) : readyO (feedBit b s) = (tableRead s.st b).ready :=
  (tableRead_ready s.st b).symm

@[simp] theorem exec_reset (s : State) : exec .reset s = .next (clearAccumulator s) := rfl

@[simp] theorem exec_feed (b : Bit) (s : State) : exec (.feed b) s = .next (feedBit b s) := rfl

/-- A cycle with `rst = 1` clears the register whatever its command (70_reset_and_hazards.md R180). -/
theorem step_of_rst {s : State} {c : CycleInput} {rest : List CycleInput} (hs : s.inputs = c :: rest)
    (hr : c.rst = true) : step s = .next { st := 0#9, inputs := rest } :=
  (step_eq_next_iff s _).2 ⟨c, hs, .inl ⟨hr, rfl⟩⟩

/-- Settles O31: the outputs read off the register, and the ready flag FEED, RESET and `rst` leave. -/
theorem outputsFollowTheRegister : Obligations.OutputsFollowTheRegister := by
  refine ⟨fun s => ⟨rfl, fun ready => ⟨byteO_of_ready ready, ?_⟩, byteO_of_not_ready⟩,
    fun s b => ⟨feedBit b s, exec_feed b s, readyO_feedBit b s⟩,
    fun s => ⟨clearAccumulator s, exec_reset s, readyO_of_st_zero (clearAccumulator_st s)⟩,
    fun s c rest hs hr => ⟨_, step_of_rst hs hr, readyO_of_st_zero rfl⟩⟩
  rw [byteO_of_ready ready, completedByte_eq_sub ready]

end Sys2Proof.Machine
end

section
/-! PROOFS. What a cycle and a run do to the register, and the shift register it encodes (10_state.md R36,
40_transition_table.md R101 to R104). -/

namespace Sys2Proof.Machine

/-! ### The register after a cycle and after a run -/

/-- The register after the cycle `c`: cleared, fed or held. -/
def stAfter (v : StWord) (c : CycleInput) : StWord :=
  if isClearing c then 0#9
  else match bitFed c with
    | some b => (tableRead v b).next
    | none => v

theorem stAfter_of_clearing {c : CycleInput} (h : isClearing c = true) (v : StWord) : stAfter v c = 0#9 := if_pos h

/-- A step that has a cycle's inputs answers the register after that cycle and leaves the later inputs. -/
theorem step_eq_stAfter {s : State} {c : CycleInput} {rest : List CycleInput} (hs : s.inputs = c :: rest) :
    step s = .next { st := stAfter s.st c, inputs := rest } := by
  refine (step_eq_next_iff s _).2 ⟨c, hs, ?_⟩
  cases hr : c.rst with
  | true => exact .inl ⟨rfl, stAfter_of_clearing (by simp [isClearing, hr]) s.st⟩
  | false =>
    refine .inr ⟨rfl, ?_⟩
    cases hd : decode c.cmd with
    | nop => simp [stAfter, isClearing, bitFed, hr, hd, exec, execNop]
    | reset => simp [stAfter, isClearing, hr, hd, clearAccumulator, State.setSt]
    | feed b => simp [stAfter, isClearing, bitFed, hr, hd, feedBit, feedFrom, State.setSt, tableRead]

/-- Every run completes, and its final register is that of its cycles taken in order. -/
theorem exists_observeRun (cs : List CycleInput) (v : StWord) :
    ∃ o, observeRun cs v = .next o ∧ o.final = cs.foldl stAfter v := by
  induction cs generalizing v with
  | nil => exact ⟨_, rfl, rfl⟩
  | cons c cs ih =>
    obtain ⟨o, run, final⟩ := ih (stAfter v c)
    exact ⟨_, observeRun_cons c cs v _ o (step_eq_stAfter rfl) run, final⟩

/-- A run that clears goes on from the clearing cycle as a run from 0 does, whatever came before. -/
theorem foldl_stAfter_of_clearing {r : CycleInput} (hr : isClearing r = true) (before cs : List CycleInput)
    (v : StWord) : (before ++ r :: cs).foldl stAfter v = cs.foldl stAfter 0#9 := by
  rw [List.foldl_append, List.foldl_cons, stAfter_of_clearing hr]

/-! ### The shift register -/

/-- A FEED pushes its bit into the shift register that the state encodes: each row of the table is one push. -/
theorem shifterOf_tableRead_next (s : StWord) (b : Bit) : shifterOf (tableRead s b).next = (shifterOf s).push b := by
  have bit : b.toNat < 2 := b.isLt
  obtain start | ⟨h2, h255⟩ | terminal := start_or_intermediate_or_terminal s
  · have number : (tableRead s b).next.toNat = 2 ^ 1 + b.toNat := by
      rw [tableRead_of_start start, BitVec.toNat_ofNat]; omega
    simp [shifterOf, Shifter.push, decodeState_of_start start,
      decodeState_of_marker_add (k := 1) (by decide) (by decide) bit number]
  · have next := tableRead_next_toNat_of_intermediate h2 h255 b
    obtain ⟨k, v, hk, hk7, hv, number⟩ := exists_eq_marker_add h2 h255
    have notFull : k < 8 := Nat.lt_succ_of_le hk7
    simp only [shifterOf, Shifter.push, decodeState_of_marker_add hk hk7 hv number, if_pos notFull]
    obtain short | rfl : k ≤ 6 ∨ k = 7 := by omega
    · rw [decodeState_of_marker_add (k := k + 1) (v := 2 * v + b.toNat) (by omega) (by omega)
        (by rw [Nat.pow_succ]; omega) (by rw [next, number, Nat.pow_succ]; omega)]
    · rw [decodeState_of_terminal (by omega), next, number]
      exact congrArg (Shifter.mk 8) (by omega)
  · rw [tableRead_of_terminal terminal]
    simp [shifterOf, Shifter.push, decodeState_of_terminal terminal]

end Sys2Proof.Machine
end

section
/-! PROOFS. The register codes the bits fed since the last clear (20_memory.md R51, R54). -/

namespace Sys2Proof.Machine

/-! ### The history a state codes -/

theorem bitsValue_concat (bs : List Bit) (b : Bit) : bitsValue (bs ++ [b]) = 2 * bitsValue bs + b.toNat := by
  rw [bitsValue, List.foldl_append]; rfl

theorem codesHistory_nil_of_start {s : StWord} (h : isStart s = true) : codesHistory [] s :=
  decodeState_of_start ((isStart_iff s).1 h)

theorem codesHistory_iff_shifterOf (h : List Bit) (s : StWord) :
    codesHistory h s ↔ shifterOf s = { count := min h.length 8, buffer := bitsValue (h.take 8) } := by
  rw [codesHistory, shifterOf, Shifter.mk.injEq, Prod.ext_iff]

/-- A FEED adds its bit to the coded history; from the 9th bit on the push and the bits coded both stay. -/
theorem codesHistory_concat {h : List Bit} {s : StWord} (hs : codesHistory h s) (b : Bit) :
    codesHistory (h ++ [b]) (tableRead s b).next := by
  rw [codesHistory_iff_shifterOf] at hs ⊢
  simp only [shifterOf_tableRead_next, hs, Shifter.push, List.length_append, List.length_singleton]
  obtain short | full : h.length + 1 ≤ 8 ∨ 8 ≤ h.length := by omega
  · have whole : (h ++ [b]).take 8 = h ++ [b] := List.take_of_length_le (by simpa using short)
    rw [if_pos (by omega), whole, bitsValue_concat, List.take_of_length_le (by omega), Nat.min_eq_left short,
      Nat.min_eq_left (by omega)]
  · rw [if_neg (by omega), List.take_append_of_le_length full, Nat.min_eq_right full, Nat.min_eq_right (by omega)]

/-- The register goes on coding the bits fed since the last clear, cycle by cycle. -/
theorem codesHistory_stAfter {h : List Bit} {v : StWord} (hv : codesHistory h v) (c : CycleInput) :
    codesHistory (historyAfter h c) (stAfter v c) := by
  rw [historyAfter, stAfter]
  split
  · exact codesHistory_nil_of_start (by decide)
  · cases bitFed c with
    | none => rwa [Option.toList_none, List.append_nil]
    | some b => exact codesHistory_concat hv b

theorem codesHistory_foldl {h : List Bit} {v : StWord} (hv : codesHistory h v) (cs : List CycleInput) :
    codesHistory (cs.foldl historyAfter h) (cs.foldl stAfter v) := by
  induction cs generalizing h v with
  | nil => exact hv
  | cons c cs ih => exact ih (codesHistory_stAfter hv c)

theorem foldl_historyAfter_of_no_clear {cs : List CycleInput} (hcs : ∀ c ∈ cs, isClearing c = false) (h : List Bit) :
    cs.foldl historyAfter h = h ++ bitsFed cs := by
  induction cs generalizing h with
  | nil => exact (List.append_nil h).symm
  | cons c cs ih =>
    obtain ⟨hc, hcs⟩ := List.forall_mem_cons.1 hcs
    rw [List.foldl_cons, ih hcs, historyAfter, hc]
    cases fed : bitFed c <;> simp [bitsFed, fed]

/-- A run from a start state that never clears ends in a state that codes exactly the bits it fed. -/
theorem codesHistory_bitsFed {s : StWord} (hs : isStart s = true) {cs : List CycleInput}
    (hcs : ∀ c ∈ cs, isClearing c = false) : codesHistory (bitsFed cs) (cs.foldl stAfter s) := by
  have coded := codesHistory_foldl (codesHistory_nil_of_start hs) cs
  rwa [foldl_historyAfter_of_no_clear hcs, List.nil_append] at coded

/-! ### The ready flag and the byte of a coded history -/

/-- The ready flag is set exactly in the states of eight bits (10_state.md R22, R28). -/
theorem readyFlag_eq_decide_bitCount (s : StWord) : readyFlag s = decide ((decodeState s).1 = 8) := by
  rw [readyFlag_eq_decide, decide_eq_decide]
  obtain start | ⟨h2, h255⟩ | terminal := start_or_intermediate_or_terminal s
  · rw [decodeState_of_start start]; omega
  · obtain ⟨k, v, hk, hk7, hv, number⟩ := exists_eq_marker_add h2 h255
    rw [decodeState_of_marker_add hk hk7 hv number]; omega
  · rw [decodeState_of_terminal terminal]; omega

theorem readyFlag_of_codesHistory {h : List Bit} {s : StWord} (hs : codesHistory h s) :
    readyFlag s = decide (8 ≤ h.length) := by
  rw [readyFlag_eq_decide_bitCount, hs, decide_eq_decide]
  omega

/-- The completed byte is the buffer of a state with the ready flag set (10_state.md R22, R34). -/
theorem completedByte_toNat_of_ready {s : StWord} (ready : readyFlag s = true) :
    (completedByte s).toNat = (decodeState s).2 := by
  have bound : s.toNat < 512 := s.isLt
  have terminal : 256 ≤ s.toNat := by rwa [readyFlag_eq_decide, decide_eq_true_iff] at ready
  rw [completedByte_eq_sub ready, decodeState_of_terminal terminal, BitVec.toNat_ofNat]
  omega

theorem bitAt_toNat (v : Byte) (i : Nat) : (bitAt v i).toNat = v.toNat / 2 ^ i % 2 :=
  (BitVec.toNat_ofBool _).trans (Nat.toNat_testBit v.toNat i)

/-! ### The obligations -/

/-- Settles O36: the final register codes the eight bits fed, whose value is read off bit by bit. -/
theorem firstBitFedIsMostSignificant : Obligations.FirstBitFedIsMostSignificant := by
  intro s cs b0 b1 b2 b3 b4 b5 b6 b7 start noClear fed
  obtain ⟨o, run, final⟩ := exists_observeRun cs s
  have coded : codesHistory [b0, b1, b2, b3, b4, b5, b6, b7] o.final := by
    rw [final, ← fed]
    exact codesHistory_bitsFed start noClear
  have ready : readyFlag o.final = true := readyFlag_of_codesHistory coded
  have value : (completedByte o.final).toNat =
      b0.toNat * 2 ^ 7 + b1.toNat * 2 ^ 6 + b2.toNat * 2 ^ 5 + b3.toNat * 2 ^ 4
        + b4.toNat * 2 ^ 3 + b5.toNat * 2 ^ 2 + b6.toNat * 2 ^ 1 + b7.toNat * 2 ^ 0 := by
    rw [completedByte_toNat_of_ready ready, coded]
    simp only [bitsValue, List.take, List.foldl]
    omega
  refine ⟨o, run, ready, value, BitVec.eq_of_toNat_eq ?_, BitVec.eq_of_toNat_eq ?_⟩
  · rw [bitAt_toNat, value]; omega
  · rw [bitAt_toNat, value]; omega

/-- Settles O38: a run from a start state codes the bits it fed, and one that cleared runs on as from the start state 0. -/
theorem byteCompletesAtTheEighthFeed : Obligations.ByteCompletesAtTheEighthFeed := by
  intro cs noClear
  have readyAtEight : ∀ s, isStart s = true →
      readyFlag (cs.foldl stAfter s) = decide (8 ≤ (bitsFed cs).length) := fun s start =>
    readyFlag_of_codesHistory (codesHistory_bitsFed start noClear)
  refine ⟨fun s start => ?_, fun s before r clears => ?_⟩
  · obtain ⟨o, run, final⟩ := exists_observeRun cs s
    exact ⟨o, run, final ▸ readyAtEight s start⟩
  · obtain ⟨o, run, final⟩ := exists_observeRun (before ++ r :: cs) s
    rw [foldl_stAfter_of_clearing clears] at final
    exact ⟨o, run, final ▸ readyAtEight 0#9 (by decide)⟩

end Sys2Proof.Machine
end

section
/-! PROOFS. The fields of a command word, and the address and fields of a table cell (30_encoding.md R71 to R73, R77,
R78). -/

namespace Sys2Proof

/-! ### Command words -/

theorem fieldF_eq_ofBool (c : CmdWord) : fieldF c = BitVec.ofBool (c.getLsbD 1) := by revert c; decide

theorem fieldB_eq_ofBool (c : CmdWord) : fieldB c = BitVec.ofBool (c.getLsbD 0) := by revert c; decide

theorem decode_of_feed_word {c : CmdWord} (h : c.getLsbD 1 = true) :
    decode c = .feed (BitVec.ofBool (c.getLsbD 0)) := by
  rw [decode, fieldF_eq_ofBool, fieldB_eq_ofBool, h]; rfl

/-- The bit at `cmd[0]` of a control command chooses between NOP and RESET. -/
theorem decode_of_control_word {c : CmdWord} (h : c.getLsbD 1 = false) :
    decode c = if c.getLsbD 0 then .reset else .nop := by
  rw [decode, fieldF_eq_ofBool, fieldB_eq_ofBool, h]
  cases c.getLsbD 0 <;> rfl

/-- A command's word decodes to it. -/
@[simp] theorem decode_encode (i : Instr) : decode (encode i) = i := by
  cases i with
  | nop => rfl
  | reset => rfl
  | feed b => revert b; decide

/-- Settles O1: `cmd[1]` chooses the kind of command, and `cmd[0]` its bit or the control command. -/
theorem commandWordsDecodeAsTabled : Obligations.CommandWordsDecodeAsTabled := by
  refine ⟨decode_encode .nop, decode_encode .reset, decode_encode (.feed 0#1), decode_encode (.feed 1#1),
    fun c => ⟨decode_of_feed_word, fun control low => ?_, fun control high => ?_⟩⟩
  · rw [decode_of_control_word control, low]; rfl
  · rw [decode_of_control_word control, high]; rfl

namespace Machine

/-! ### Table cells -/

theorem tableAddress_toNat (s : StWord) (b : Bit) : (tableAddress s b).toNat = 2 * s.toNat + b.toNat := by
  rw [tableAddress, BitVec.toNat_append, ← Nat.shiftLeft_add_eq_or_of_lt b.isLt, Nat.shiftLeft_eq]
  omega

/-- A lookup is the two fields of the cell at the address it forms. -/
theorem tableRead_eq_fields (s : StWord) (b : Bit) :
    tableRead s b =
      { ready := cellReady (transitionTable (tableAddress s b)),
        next := cellNext (transitionTable (tableAddress s b)) } := rfl

/-- Settles O13: the address by its bits, and the fields by what a lookup reads. -/
theorem cellsLieAtTheirAddresses : Obligations.CellsLieAtTheirAddresses := by
  intro s b
  rw [tableRead_eq_fields]
  exact ⟨tableAddress_toNat s b, rfl, rfl⟩

end Machine

end Sys2Proof
end

section
/-! PROOFS. What a run shows, as a function of its cycles and its first register value (10_state.md R36, R37). -/

namespace Sys2Proof.Machine

/-! ### The observation of a run -/

/-- What the run over a list of cycles from a register value shows. -/
def observation : List CycleInput → StWord → Observation
  | [], v => { outputs := [], emitted := [], final := v }
  | c :: cs, v => (observation cs (stAfter v c)).after c { st := stAfter v c, inputs := [] }

theorem observeRun_eq_observation (cs : List CycleInput) (v : StWord) :
    observeRun cs v = .next (observation cs v) := by
  induction cs generalizing v with
  | nil => rfl
  | cons c cs ih =>
    have stepped : step { st := v, inputs := c :: cs } = .next { st := stAfter v c, inputs := cs } :=
      step_eq_stAfter rfl
    rw [observeRun_cons c cs v _ _ stepped (ih (stAfter v c))]
    rfl

theorem observation_final (cs : List CycleInput) (v : StWord) : (observation cs v).final = cs.foldl stAfter v := by
  induction cs generalizing v with
  | nil => rfl
  | cons c cs ih => exact ih (stAfter v c)

theorem observation_append_outputs (cs ds : List CycleInput) (v : StWord) :
    (observation (cs ++ ds) v).outputs =
      (observation cs v).outputs ++ (observation ds (cs.foldl stAfter v)).outputs := by
  induction cs generalizing v with
  | nil => rfl
  | cons c cs ih => exact congrArg (outputsOf _ :: ·) (ih (stAfter v c))

theorem observation_append_emitted (cs ds : List CycleInput) (v : StWord) :
    (observation (cs ++ ds) v).emitted =
      (observation cs v).emitted ++ (observation ds (cs.foldl stAfter v)).emitted := by
  induction cs generalizing v with
  | nil => rfl
  | cons c cs ih =>
    exact (congrArg ((emittedBy c _).toList ++ ·) (ih (stAfter v c))).trans (List.append_assoc ..).symm

theorem observation_concat_outputs_getLast? (cs : List CycleInput) (c : CycleInput) (v : StWord) :
    (observation (cs ++ [c]) v).outputs.getLast? =
      some (outputsOf { st := (cs ++ [c]).foldl stAfter v, inputs := [] }) := by
  rw [observation_append_outputs, List.foldl_append]
  exact List.getLast?_concat ..

theorem observation_concat_emitted (cs : List CycleInput) (c : CycleInput) (v : StWord) :
    (observation (cs ++ [c]) v).emitted =
      (observation cs v).emitted
        ++ (emittedBy c { st := (cs ++ [c]).foldl stAfter v, inputs := [] }).toList := by
  rw [observation_append_emitted, List.foldl_append]
  exact congrArg ((observation cs v).emitted ++ ·) (List.append_nil _)

/-! ### Cycles that emit nothing -/

theorem emittedBy_of_no_feed {c : CycleInput} (h : bitFed c = none) (t : State) : emittedBy c t = none := by
  simp [emittedBy, h]

theorem emittedBy_of_not_ready (c : CycleInput) {t : State} (h : readyO t = false) : emittedBy c t = none := by
  rw [emittedBy, byteO_of_not_ready h, ite_self]

theorem observation_emitted_of_no_feed {cs : List CycleInput} (h : ∀ c ∈ cs, bitFed c = none) (v : StWord) :
    (observation cs v).emitted = [] := by
  induction cs generalizing v with
  | nil => rfl
  | cons c cs ih =>
    obtain ⟨hc, hcs⟩ := List.forall_mem_cons.1 h
    simp [observation, Observation.after, emittedBy_of_no_feed hc, ih hcs]

/-- A run that never clears and feeds too few bits to complete the byte emits nothing (20_memory.md R55). -/
theorem observation_emitted_of_short {h : List Bit} {v : StWord} (hv : codesHistory h v) {cs : List CycleInput}
    (noClear : ∀ c ∈ cs, isClearing c = false) (short : h.length + (bitsFed cs).length < 8) :
    (observation cs v).emitted = [] := by
  induction cs generalizing h v with
  | nil => rfl
  | cons c cs ih =>
    obtain ⟨hc, hcs⟩ := List.forall_mem_cons.1 noClear
    have coded := codesHistory_stAfter hv c
    have lengths : (historyAfter h c).length + (bitsFed cs).length = h.length + (bitsFed (c :: cs)).length := by
      cases fed : bitFed c with
      | none => simp [historyAfter, bitsFed, hc, fed]
      | some b => simp [historyAfter, bitsFed, hc, fed, Nat.add_assoc, Nat.add_comm 1]
    have notReady : readyO { st := stAfter v c, inputs := [] } = false :=
      (readyFlag_of_codesHistory coded).trans (decide_eq_false (by omega))
    simp [observation, Observation.after, emittedBy_of_not_ready c notReady, ih coded hcs (by omega)]

/-! ### Cycles that clear -/

theorem outputsOf_of_st_zero {s : State} (h : s.st = 0#9) : outputsOf s = { ready := false, byte := none } := by
  have notReady := readyO_of_st_zero h
  rw [outputsOf, byteO_of_not_ready notReady, notReady]

theorem observation_outputs_of_clearing {cs : List CycleInput} (h : ∀ c ∈ cs, isClearing c = true) (v : StWord) :
    (observation cs v).outputs = List.replicate cs.length { ready := false, byte := none } := by
  induction cs generalizing v with
  | nil => rfl
  | cons c cs ih =>
    obtain ⟨hc, hcs⟩ := List.forall_mem_cons.1 h
    have cleared : outputsOf { st := stAfter v c, inputs := [] } = { ready := false, byte := none } :=
      outputsOf_of_st_zero (stAfter_of_clearing hc v)
    exact congrArg₂ List.cons cleared (ih hcs (stAfter v c))

theorem isClearing_of_rst {c : CycleInput} (h : c.rst = true) : isClearing c = true := by simp [isClearing, h]

theorem bitFed_of_rst {c : CycleInput} (h : c.rst = true) : bitFed c = none := if_pos h

/-- Settles O23: a cycle with `rst = 1` clears and feeds nothing, and the last of a held reset leaves 0. -/
theorem systemResetWinsOverTheCommand : Obligations.SystemResetWinsOverTheCommand := by
  refine ⟨fun s c rest hs hr => ⟨step_of_rst hs hr, ?_⟩, fun cs v nonempty held => ?_⟩
  · rw [step_of_rst hs hr, exec_reset]; rfl
  · have clears : ∀ c ∈ cs, isClearing c = true := fun c hc => isClearing_of_rst (held c hc)
    have noFeed : ∀ c ∈ cs, bitFed c = none := fun c hc => bitFed_of_rst (held c hc)
    have final : (observation cs v).final = 0#9 := by
      rw [observation_final, ← List.dropLast_concat_getLast nonempty,
        foldl_stAfter_of_clearing (clears _ (List.getLast_mem nonempty)), List.foldl_nil]
    exact ⟨_, observeRun_eq_observation cs v, final, observation_outputs_of_clearing clears v,
      observation_emitted_of_no_feed noFeed v⟩

end Sys2Proof.Machine
end

section
/-! PROOFS. The cycles of commands, and the effect of the pseudo-instructions (30_encoding.md R80, R81). -/

namespace Sys2Proof.Machine

/-! ### The cycle of each command -/

@[simp] theorem cyclesOf_append (is js : List Instr) : cyclesOf (is ++ js) = cyclesOf is ++ cyclesOf js :=
  List.map_append

@[simp] theorem bitFed_cycleOf_nop : bitFed (cycleOf .nop) = none := rfl

@[simp] theorem bitFed_cycleOf_reset : bitFed (cycleOf .reset) = none := rfl

@[simp] theorem bitFed_cycleOf_feed (b : Bit) : bitFed (cycleOf (.feed b)) = some b := by simp [bitFed, cycleOf]

@[simp] theorem isClearing_cycleOf (i : Instr) : isClearing (cycleOf i) = decide (i = .reset) := by
  simp [isClearing, cycleOf]

@[simp] theorem emittedBy_cycleOf_feed (b : Bit) (t : State) : emittedBy (cycleOf (.feed b)) t = byteO t := by
  simp [emittedBy]

/-- A run of FEEDs feeds exactly their bits. -/
@[simp] theorem bitsFed_cyclesOf_feeds (bs : List Bit) : bitsFed (cyclesOf (bs.map .feed)) = bs := by
  simp [bitsFed, cyclesOf, List.filterMap_map, Function.comp_def]

theorem cyclesOf_feeds_not_clearing (bs : List Bit) : ∀ c ∈ cyclesOf (bs.map .feed), isClearing c = false := by
  simp [cyclesOf]

theorem cyclesOf_idle (n : Nat) : cyclesOf (idle n) = List.replicate n (cycleOf .nop) := List.map_replicate

theorem foldl_stAfter_idle (n : Nat) (v : StWord) : (cyclesOf (idle n)).foldl stAfter v = v := by
  rw [cyclesOf_idle]
  induction n with
  | zero => rfl
  | succ n ih => exact ih

theorem observation_idle_emitted (n : Nat) (v : StWord) : (observation (cyclesOf (idle n)) v).emitted = [] := by
  refine observation_emitted_of_no_feed (fun c hc => ?_) v
  rw [cyclesOf_idle] at hc
  rw [List.eq_of_mem_replicate hc, bitFed_cycleOf_nop]

/-! ### The byte that eight bits complete -/

theorem bitsValue_bitsOfByte (v : Byte) : bitsValue (bitsOfByte v) = v.toNat := by
  have bound : v.toNat < 256 := v.isLt
  simp only [bitsValue, bitsOfByte, List.foldl, bitAt_toNat]
  omega

/-- Once the bits of a byte are the first eight since the last clear, the outputs show that byte. -/
theorem outputsOf_of_codesHistory_bitsOfByte {v : Byte} {s : State} (h : codesHistory (bitsOfByte v) s.st) :
    outputsOf s = { ready := true, byte := some v } := by
  have ready : readyO s = true := readyFlag_of_codesHistory h
  have byte : completedByte s.st = v := by
    apply BitVec.eq_of_toNat_eq
    rw [completedByte_toNat_of_ready ready, h, ← bitsValue_bitsOfByte v]
    rfl
  rw [outputsOf, byteO_of_ready ready, ready, byte]

/-! ### FEEDBYTE and PUTBYTE -/

theorem codesHistory_feedByte {s : StWord} (start : isStart s = true) (v : Byte) :
    codesHistory (bitsOfByte v) ((cyclesOf (feedByte v)).foldl stAfter s) := by
  have coded := codesHistory_bitsFed start (cyclesOf_feeds_not_clearing (bitsOfByte v))
  rwa [bitsFed_cyclesOf_feeds] at coded

/-- FEEDBYTE shows its byte after the last of its feeds, and none of the seven feeds before that one emits. -/
theorem observation_feedByte {s : StWord} (start : isStart s = true) (v : Byte) :
    (observation (cyclesOf (feedByte v)) s).outputs.getLast? = some { ready := true, byte := some v }
      ∧ (observation (cyclesOf (feedByte v)) s).emitted = [v] := by
  have lastFeed : cyclesOf (feedByte v) =
      cyclesOf ((bitsOfByte v).dropLast.map .feed) ++ [cycleOf (.feed (bitAt v 0))] := rfl
  have silent : (observation (cyclesOf ((bitsOfByte v).dropLast.map .feed)) s).emitted = [] :=
    observation_emitted_of_short (codesHistory_nil_of_start start) (cyclesOf_feeds_not_clearing _)
      (by rw [bitsFed_cyclesOf_feeds]; exact Nat.lt_succ_self 7)
  have shown : outputsOf { st := (cyclesOf (feedByte v)).foldl stAfter s, inputs := [] } =
      { ready := true, byte := some v } := outputsOf_of_codesHistory_bitsOfByte (codesHistory_feedByte start v)
  rw [lastFeed] at shown ⊢
  constructor
  · rw [observation_concat_outputs_getLast?, shown]
  · rw [observation_concat_emitted, silent, emittedBy_cycleOf_feed, ← outputsOf_byte, shown]
    rfl

/-- The RESET that ends PUTBYTE leaves the emitted byte and empties the register. -/
theorem observation_putByte {s : StWord} (start : isStart s = true) (v : Byte) :
    (observation (cyclesOf (putByte v)) s).emitted = [v] ∧ (observation (cyclesOf (putByte v)) s).final = 0#9 := by
  have lastReset : cyclesOf (putByte v) = cyclesOf (feedByte v) ++ [cycleOf .reset] := cyclesOf_append _ _
  rw [lastReset]
  constructor
  · rw [observation_concat_emitted, (observation_feedByte start v).2, emittedBy_of_no_feed bitFed_cycleOf_reset]
    rfl
  · rw [observation_final, foldl_stAfter_of_clearing (by simp), List.foldl_nil]

/-- Settles O6: the expansions by definition, and the effects read off what their runs show. -/
theorem pseudoInstructionsHaveTheirEffect : Obligations.PseudoInstructionsHaveTheirEffect := by
  refine ⟨fun v => ⟨rfl, rfl⟩, fun n => rfl,
    fun v s start => ⟨⟨_, observeRun_eq_observation .., observation_feedByte start v⟩,
      _, observeRun_eq_observation .., observation_putByte start v⟩,
    fun n s => ⟨_, observeRun_eq_observation .., ?_, observation_idle_emitted n s⟩⟩
  rw [observation_final, foldl_stAfter_idle]

end Sys2Proof.Machine
end

section
/-! PROOFS. The table as its closed form (40_transition_table.md R105), the tables that conform (R112), and the rows by
class (R101 to R104). -/

namespace Sys2Proof.Machine

/-! ### The closed form -/

/-- A bit appended below a word doubles the word and adds the bit. -/
theorem toNat_append_bit {n : Nat} (x : BitVec n) (b : Bit) : (x ++ b).toNat = 2 * x.toNat + b.toNat := by
  rw [BitVec.toNat_append, ← Nat.shiftLeft_add_eq_or_of_lt b.isLt, Nat.shiftLeft_eq]
  omega

/-- The closed form on bits computes the closed form on numbers, without loss. -/
theorem closedFormBits_toNat (s : StWord) (b : Bit) : (closedFormBits s b).toNat = closedFormNext s.toNat b.toNat := by
  have msb : s.getLsbD 8 = decide (256 ≤ s.toNat) := readyFlag_eq_decide s
  rw [closedFormBits, closedFormNext, Config.firstTerminal, msb]
  by_cases zero : s = 0#9
  · subst zero
    exact toNat_append_bit 1#8 b
  have notZero : s.toNat ≠ 0 := BitVec.toNat_ne.1 zero
  rw [if_neg notZero, if_neg zero]
  by_cases terminal : 256 ≤ s.toNat
  · rw [decide_eq_true terminal, if_pos rfl, if_neg (by omega)]
  · have low : (s.extractLsb' 0 8).toNat = s.toNat := by
      rw [BitVec.extractLsb'_toNat, Nat.shiftRight_zero]
      omega
    rw [decide_eq_false terminal, if_neg Bool.false_ne_true, if_pos (by omega), toNat_append_bit, low]

/-- The rows of the table on numbers are the closed form: row 0 goes where row 1 goes, the other rows below 256 double
and add the bit, and the terminal rows stay. -/
theorem tableRead_next_toNat (s : StWord) (b : Bit) :
    (tableRead s b).next.toNat = closedFormNext s.toNat b.toNat := by
  have bit : b.toNat < 2 := b.isLt
  rw [closedFormNext, Config.firstTerminal]
  obtain start | ⟨h2, h255⟩ | terminal := start_or_intermediate_or_terminal s
  · rw [tableRead_of_start start, BitVec.toNat_ofNat]
    split_ifs <;> omega
  · rw [tableRead_next_toNat_of_intermediate h2 h255, if_neg (by omega), if_pos (by omega)]
  · rw [tableRead_of_terminal terminal, if_neg (by omega), if_neg (by omega)]

theorem closedFormBits_eq_tableRead_next (s : StWord) (b : Bit) : closedFormBits s b = (tableRead s b).next :=
  BitVec.eq_of_toNat_eq ((closedFormBits_toNat s b).trans (tableRead_next_toNat s b).symm)

/-! ### Conforming tables -/

/-- Every address is that of its row and column. -/
theorem tableAddress_address (a : CellAddr) : tableAddress (addressState a) (addressBit a) = a := by
  apply BitVec.eq_of_toNat_eq
  rw [tableAddress_toNat, addressState, addressBit, BitVec.extractLsb'_toNat, BitVec.extractLsb'_toNat,
    Nat.shiftRight_zero, Nat.shiftRight_one]
  have bound : a.toNat < 1024 := a.isLt
  omega

/-- The conforming contents are the block's own, so conforming tables differ in how they are realised only. -/
theorem conforms_iff (T : Table) : T.conforms ↔ T = transitionTable := by
  constructor
  · intro conforms
    funext a
    rw [← tableAddress_address a, conforms, transitionTable, addressState_tableAddress, addressBit_tableAddress]
  · rintro rfl s b
    rw [transitionTable, addressState_tableAddress, addressBit_tableAddress]

/-- The ready bit of a row's cell is bit 8 of its next state, so it need not be stored (40_transition_table.md R106). -/
theorem transition_eq_of_next {s : StWord} {b : Bit} {n : StWord} (h : n = (transition s b).next) :
    transition s b = { ready := n.getLsbD 8, next := n } := by
  subst h
  have ready : (transition s b).ready = readyFlag (transition s b).next := by
    rw [← tableRead_eq_transition]
    exact tableRead_ready s b
  rw [← readyFlag, ← ready]

theorem withoutReadyBit_conforms {nexts : CellAddr → StWord}
    (h : ∀ s b, nexts (tableAddress s b) = (transition s b).next) : (withoutReadyBit nexts).conforms :=
  fun s b => congrArg packCell (transition_eq_of_next (h s b)).symm

/-- The closed form stores nothing, and takes its ready bit from the next state it computes. -/
theorem closedFormTable_conforms : Table.conforms closedFormTable := by
  refine withoutReadyBit_conforms (nexts := fun a => closedFormBits (addressState a) (addressBit a)) fun s b => ?_
  rw [addressState_tableAddress, addressBit_tableAddress, closedFormBits_eq_tableRead_next, tableRead_eq_transition]

theorem tableOfColumns_conforms {rows : StWord → CellWord × CellWord}
    (h : ∀ s, rows s = (packCell (transition s 0#1), packCell (transition s 1#1))) : (tableOfColumns rows).conforms := by
  intro s b
  rw [tableOfColumns, addressState_tableAddress, addressBit_tableAddress, h]
  obtain rfl | rfl := BitVec.eq_zero_or_eq_one b
  · exact if_pos rfl
  · exact if_neg (by decide)

/-- Settles O14: a conforming table is the block's own, and each realisation has the cells of the row rules. -/
theorem conformingRealisationsRunAlike : Obligations.ConformingRealisationsRunAlike := by
  refine ⟨fun T conforms => ?_, (conforms_iff _).2 rfl, closedFormTable_conforms, fun _ => tableOfColumns_conforms,
    fun _ => withoutReadyBit_conforms⟩
  obtain rfl := (conforms_iff T).1 conforms
  exact ⟨execFrom_transitionTable, stepFrom_transitionTable, fun _ _ => rfl⟩

/-! ### The rows -/

/-- Settles O7: the start rows by their class, and the doubling rows by the closed form. -/
theorem startRowsGoToTheOneBitStates : Obligations.StartRowsGoToTheOneBitStates := by
  refine ⟨fun b => ⟨tableRead_of_start (by decide) b, tableRead_of_start (by decide) b⟩, fun s b below => ?_,
    tableRead_of_start (by decide) 1#1⟩
  rw [tableRead_next_toNat, closedFormNext, Config.firstTerminal, BitVec.toNat_ne, BitVec.toNat_zero]
  split_ifs <;> omega

/-- Settles O8: a state below 128 has its marker at bit 6 or lower, and doubling it moves the marker up by one. -/
theorem intermediateRowsShiftTheBitIn : Obligations.IntermediateRowsShiftTheBitIn := by
  refine ⟨fun s b h2 h127 => ?_, tableRead_of_intermediate (by decide) (by decide) 0#1,
    tableRead_of_intermediate (by decide) (by decide) 1#1, tableRead_of_intermediate (by decide) (by decide) 1#1⟩
  have h255 : s.toNat ≤ 255 := by omega
  obtain ⟨k, v, hk, hk7, hv, number⟩ := exists_eq_marker_add h2 h255
  have notSeven : k ≠ 7 := by rintro rfl; omega
  refine ⟨k, v, decodeState_of_marker_add hk hk7 hv number, hk, by omega, hv, number, ?_, ?_⟩
  · rw [tableRead_of_intermediate h2 h255]
    exact decide_eq_false (by omega)
  · rw [tableRead_next_toNat_of_intermediate h2 h255, number, Nat.pow_succ]
    omega

/-- Settles O9: a state from 128 on has its marker at bit 7, and doubling it moves the marker to the ready bit. -/
theorem completingRowsReportTheByte : Obligations.CompletingRowsReportTheByte := by
  refine ⟨fun s b h128 h255 => ?_, tableRead_of_intermediate (by decide) (by decide) 0#1,
    tableRead_of_intermediate (by decide) (by decide) 1#1, tableRead_of_intermediate (by decide) (by decide) 0#1⟩
  have h2 : 2 ≤ s.toNat := by omega
  refine ⟨decodeState_of_marker_add (k := 7) (by decide) (by decide) (by omega) (by omega), ?_, ?_⟩
  · rw [tableRead_of_intermediate h2 h255]
    exact decide_eq_true h128
  · rw [tableRead_next_toNat_of_intermediate h2 h255]
    omega

/-- Settles O10: the terminal rows by their class. -/
theorem terminalRowsPointToThemselves : Obligations.TerminalRowsPointToThemselves :=
  ⟨fun _ b terminal => tableRead_of_terminal terminal b, tableRead_of_terminal (by decide) 1#1⟩

end Sys2Proof.Machine
end

section
/-! PROOFS. The commands' words, completion and effect (41_accumulator_ops.md R131 to R133), and the step that performs
them (R130). -/

namespace Sys2Proof

/-! ### The word of a command -/

@[simp] theorem encode_decode (c : CmdWord) : encode (decode c) = c := by revert c; decide

/-- A word decodes to a command exactly if it is the command's word (30_encoding.md R72). -/
theorem decode_eq_iff_eq_encode (c : CmdWord) (i : Instr) : decode c = i ↔ c = encode i := by
  constructor
  · rintro rfl; exact (encode_decode c).symm
  · rintro rfl; exact decode_encode i

theorem encode_feed_ne_control (b : Bit) : encode (.feed b) ≠ 0b00#2 ∧ encode (.feed b) ≠ 0b01#2 := by
  revert b; decide

theorem fieldB_encode_feed (b : Bit) : fieldB (encode (.feed b)) = b := by revert b; decide

namespace Machine

/-! ### NOP -/

@[simp] theorem exec_nop (s : State) : exec .nop s = .next s := rfl

/-- Idle cycles show the outputs of the state they hold, once for each cycle. -/
theorem observation_idle_outputs (n : Nat) (s : State) :
    (observation (cyclesOf (idle n)) s.st).outputs = List.replicate n (outputsOf s) := by
  rw [cyclesOf_idle]
  induction n with
  | zero => rfl
  | succ n ih => exact congrArg (outputsOf s :: ·) ih

/-- Settles O16: NOP answers its own state, and what its cycles show is that of idle runs. -/
theorem nopHoldsTheState : Obligations.NopHoldsTheState := by
  refine ⟨fun c => decode_eq_iff_eq_encode c .nop,
    fun s => ⟨exec_nop s, emittedBy_of_no_feed bitFed_cycleOf_nop s⟩,
    fun s n => ⟨_, observeRun_eq_observation .., observation_idle_outputs n s, observation_idle_emitted n s.st, ?_⟩,
    exec_nop _⟩
  rw [observation_final, foldl_stAfter_idle]

/-! ### RESET -/

/-- RESET clears the register over any table, for it reads no cell (90_conflicts.md C4). -/
@[simp] theorem execFrom_reset (T : Table) (s : State) : execFrom T .reset s = .next (clearAccumulator s) := rfl

/-- Settles O17: RESET clears the register, and the cleared register shows nothing. -/
theorem resetEmptiesTheAccumulator : Obligations.ResetEmptiesTheAccumulator := by
  refine ⟨fun c => decode_eq_iff_eq_encode c .reset, fun s => ?_, exec_reset _⟩
  have notReady : readyO (clearAccumulator s) = false := readyO_of_st_zero (clearAccumulator_st s)
  exact ⟨exec_reset s, (execFrom_reset · s), notReady, byteO_of_not_ready notReady,
    emittedBy_of_no_feed bitFed_cycleOf_reset _⟩

/-! ### FEED -/

theorem tableRead_next_toNat_of_start {s : StWord} (h : s.toNat < 2) (b : Bit) :
    (tableRead s b).next.toNat = 2 + b.toNat := by
  have bit : b.toNat < 2 := b.isLt
  rw [tableRead_of_start h, BitVec.toNat_ofNat]
  omega

/-- The byte after a FEED is read off the cell: its next state less 256, when the cell is ready. -/
theorem byteO_feedBit (b : Bit) (s : State) :
    byteO (feedBit b s) =
      if (tableRead s.st b).ready then some (BitVec.ofNat 8 ((tableRead s.st b).next.toNat - 256)) else none := by
  cases ready : (tableRead s.st b).ready with
  | false => exact byteO_of_not_ready ((readyO_feedBit b s).trans ready)
  | true =>
    have shown : readyO (feedBit b s) = true := (readyO_feedBit b s).trans ready
    rw [byteO_of_ready shown, completedByte_eq_sub shown, feedBit_st, if_pos rfl]

/-- The 8th bit completes the byte whose first seven bits the state holds above its marker 128. -/
theorem byteO_feedBit_of_completing {s : State} (h128 : 128 ≤ s.st.toNat) (h255 : s.st.toNat ≤ 255) (b : Bit) :
    byteO (feedBit b s) = some (BitVec.ofNat 8 (2 * (s.st.toNat - 128) + b.toNat)) := by
  have h2 : 2 ≤ s.st.toNat := by omega
  have ready : (tableRead s.st b).ready = true := by
    rw [tableRead_of_intermediate h2 h255, decide_eq_true h128]
  have byte : 2 * s.st.toNat + b.toNat - 256 = 2 * (s.st.toNat - 128) + b.toNat := by omega
  rw [byteO_feedBit, if_pos ready, tableRead_next_toNat_of_intermediate h2 h255, byte]

theorem feedBit_of_terminal {s : State} (h : 256 ≤ s.st.toNat) (b : Bit) : feedBit b s = s :=
  congrArg s.setSt (congrArg Cell.next (tableRead_of_terminal h b))

/-- Settles O18: the cell read gives the state and the outputs, and its row their values in each class of states. -/
theorem feedPushesOneBitThroughTheTable : Obligations.FeedPushesOneBitThroughTheTable := by
  have example217 : feedBit 0#1 { st := 217#9, inputs := [] } = { st := 434#9, inputs := [] } :=
    congrArg (State.mk · []) (congrArg Cell.next (tableRead_of_intermediate (by decide) (by decide) 0#1))
  refine ⟨fun c b => decode_eq_iff_eq_encode c (.feed b),
    fun s b => ⟨feedBit b s, exec_feed b s, rfl, readyO_feedBit b s, byteO_feedBit b s, fun start => ?_,
      fun h2 h127 => ?_, fun h128 h255 => byteO_feedBit_of_completing h128 h255 b, fun terminal => ?_⟩,
    congrArg Host.Outcome.next example217, by decide⟩
  · obtain zero | one := start
    · exact tableRead_next_toNat_of_start (by rw [zero]; decide) b
    · exact tableRead_next_toNat_of_start (by rw [one]; decide) b
  · rw [readyO_feedBit, tableRead_of_intermediate h2 (by omega)]
    exact decide_eq_false (by omega)
  · have held : feedBit b s = s := feedBit_of_terminal terminal b
    exact ⟨held, by rw [emittedBy_cycleOf_feed, held]⟩

/-! ### The step -/

/-- A cycle with `rst = 0` runs the command whose word it carries. -/
theorem step_of_command (v : StWord) (i : Instr) (rest : List CycleInput) :
    step { st := v, inputs := cycleOf i :: rest } = exec i { st := v, inputs := rest } :=
  congrArg (exec · { st := v, inputs := rest }) (decode_encode i)

/-- Settles O21: `rst = 1` clears; otherwise `cmd` is the word of a command, which runs. -/
theorem stepFollowsThePseudocode : Obligations.StepFollowsThePseudocode := by
  intro v r cmd rest
  cases r with
  | true => exact step_of_rst rfl rfl
  | false =>
    obtain ⟨i, rfl⟩ : ∃ i, cmd = encode i := ⟨decode cmd, (encode_decode cmd).symm⟩
    refine (step_of_command v i rest).trans ?_
    cases i with
    | nop => rfl
    | reset => rfl
    | feed b =>
      obtain ⟨notNop, notReset⟩ := encode_feed_ne_control b
      have bit : (encode (.feed b)).extractLsb' 0 1 = b := fieldB_encode_feed b
      rw [if_neg Bool.false_ne_true, if_neg notNop, if_neg notReset, bit]
      rfl

end Machine

end Sys2Proof
end

section
/-! PROOFS. Error conditions, the unreset terminal state and simultaneous events (60_exceptions.md R161, R163, R169). -/

namespace Sys2Proof.Machine

/-! ### A terminal state that is not reset -/

theorem outputsOf_of_terminal {s : State} (h : isTerminal s.st = true) :
    outputsOf s = { ready := true, byte := some (completedByte s.st) } := by
  have ready : readyO s = true := (readyFlag_eq_decide s.st).trans h
  rw [outputsOf, byteO_of_ready ready, ready]

/-- Only a clearing cycle leaves a terminal state: a FEED is lost on it, and a NOP holds it. -/
theorem stAfter_of_terminal {s : StWord} (h : isTerminal s = true) {c : CycleInput} (noClear : isClearing c = false) :
    stAfter s c = s := by
  cases fed : bitFed c with
  | none => simp [stAfter, noClear, fed]
  | some b => simp [stAfter, noClear, fed, tableRead_of_terminal ((isTerminal_iff s).1 h)]

/-- A run that never clears a terminal state holds it, shows its byte in every cycle, and emits it at every FEED. -/
theorem observation_of_terminal {s : StWord} (h : isTerminal s = true) {cs : List CycleInput}
    (noClear : ∀ c ∈ cs, isClearing c = false) :
    observation cs s =
      { outputs := List.replicate cs.length { ready := true, byte := some (completedByte s) }
        emitted := List.replicate (bitsFed cs).length (completedByte s)
        final := s } := by
  induction cs with
  | nil => rfl
  | cons c cs ih =>
    obtain ⟨hc, hcs⟩ := List.forall_mem_cons.1 noClear
    have shown := outputsOf_of_terminal (s := { st := s, inputs := [] }) h
    have byte : byteO { st := s, inputs := [] } = some (completedByte s) := congrArg Outputs.byte shown
    rw [observation, stAfter_of_terminal h hc, ih hcs, Observation.after, shown, emittedBy, byte]
    cases fed : bitFed c with
    | none => simp [bitsFed, fed, List.replicate_succ]
    | some b => simp [bitsFed, fed, List.replicate_succ]

/-- Settles O41: the run completes with the observation of a terminal state that is never cleared. -/
theorem unresetTerminalRepeatsItsByte : Obligations.UnresetTerminalRepeatsItsByte := by
  intro s cs terminal noClear
  refine ⟨_, observeRun_eq_observation cs s, ?_⟩
  rw [observation_of_terminal terminal noClear]
  exact ⟨rfl, rfl, rfl⟩

/-! ### The errors of `feed(v)` -/

/-- The argument is checked first, so the state does not matter (60_exceptions.md R161, R169). -/
theorem feedTxn_of_not_bit (st : Nat) {v : Nat} (h : 2 ≤ v) : feedTxn st v = .error (.invalidBit v) := if_pos h

/-- A bit fed in a state of the hardware is the FEED command of that bit. -/
theorem feedTxn_of_bit {st v : Nat} (hv : v < 2) (hst : st < 512) :
    feedTxn st v = .ok (feedBit (BitVec.ofNat 1 v) (hardwareState st)).st.toNat := by
  have inRange : ¬ Config.stateCount ≤ st := Nat.not_le.2 hst
  rw [feedTxn, if_neg (Nat.not_le.2 hv), if_neg inRange]

/-- Every command completes (60_exceptions.md R160). -/
theorem exec_ne_fault (i : Instr) (s : State) (f : Fault) : exec i s ≠ .fault f := by
  cases i with
  | nop => simp
  | reset => simp
  | feed b => simp

/-- Settles O47: the two answers of `feed(v)`, the second that of the FEED cycle, and no command that faults. -/
theorem invalidBitIsRaisedAndWritesNothing : Obligations.InvalidBitIsRaisedAndWritesNothing :=
  ⟨fun st _ hv => ⟨feedTxn_of_not_bit st hv, rfl⟩,
    fun st v hv hst => ⟨feedBit (BitVec.ofNat 1 v) (hardwareState st),
      step_of_command (BitVec.ofNat 9 st) (.feed (BitVec.ofNat 1 v)) [], feedTxn_of_bit hv hst⟩,
    fun s i v => exec_ne_fault i s (.invalidBit v)⟩

/-! ### Simultaneous events -/

/-- Settles O49: `rst = 1` clears under any command, a word is that of the command it decodes to and of no other, and
`feed` checks its argument before the state. -/
theorem simultaneousEventsHaveTheirPriority : Obligations.SimultaneousEventsHaveTheirPriority := by
  refine ⟨fun _ _ _ => step_of_rst rfl rfl, fun v cmd rest => ?_, fun s _ _ hv => feedTxn_of_not_bit s hv⟩
  obtain ⟨i, rfl⟩ : ∃ i, cmd = encode i := ⟨decode cmd, (encode_decode cmd).symm⟩
  have onlyOne : ∀ j, encode j = encode i → j = i := fun j same => by
    rw [← decode_encode j, same, decode_encode]
  exact ⟨i, rfl, onlyOne, step_of_command v i rest⟩

end Sys2Proof.Machine
end

section
/-! PROOFS. What one cycle can do to the register, said once, and the invariants every step keeps (10_state.md R25, R28;
20_memory.md R51, R54). -/

namespace Sys2Proof.Machine

/-! ### The three kinds of cycle -/

/-- A cycle clears the register, feeds one bit through the table, or holds the register. -/
theorem cycle_cases (c : CycleInput) :
    (isClearing c = true ∧ bitFed c = none ∧ ∀ v, stAfter v c = 0#9)
      ∨ (∃ b, isClearing c = false ∧ bitFed c = some b ∧ ∀ v, stAfter v c = (tableRead v b).next)
      ∨ (isClearing c = false ∧ bitFed c = none ∧ ∀ v, stAfter v c = v) := by
  cases clears : isClearing c with
  | true =>
    refine .inl ⟨rfl, ?_, stAfter_of_clearing clears⟩
    rw [isClearing, Bool.or_eq_true, decide_eq_true_iff] at clears
    obtain rst | reset := clears
    · exact bitFed_of_rst rst
    · simp [bitFed, reset]
  | false =>
    cases fed : bitFed c with
    | some b => exact .inr (.inl ⟨b, rfl, rfl, fun v => by simp [stAfter, clears, fed]⟩)
    | none => exact .inr (.inr ⟨rfl, rfl, fun v => by simp [stAfter, clears, fed]⟩)

/-- A step that answers takes the first cycle of the list, and only that cycle. -/
theorem step_next_eq {s t : State} {c : CycleInput} {rest : List CycleInput} (hs : s.inputs = c :: rest)
    (ht : step s = .next t) : t = { st := stAfter s.st c, inputs := rest } :=
  Host.Outcome.next.inj (ht.symm.trans (step_eq_stAfter hs))

/-! ### State 1, the second code of the empty accumulator -/

/-- The three forms of an entry: of row 0, of the rows that double, and of the rows that stay. -/
theorem closedFormNext_cases (s b : Nat) :
    (s = 0 ∧ closedFormNext s b = 2 + b) ∨ (1 ≤ s ∧ s ≤ 255 ∧ closedFormNext s b = 2 * s + b)
      ∨ (256 ≤ s ∧ closedFormNext s b = s) := by
  rw [closedFormNext, Config.firstTerminal]
  split_ifs <;> omega

/-- No entry of the table leads to a start state (40_transition_table.md R107). -/
theorem two_le_tableRead_next (s : StWord) (b : Bit) : 2 ≤ (tableRead s b).next.toNat := by
  have rows := closedFormNext_cases s.toNat b.toNat
  rw [tableRead_next_toNat]
  omega

theorem stAfter_ne_alias {v : StWord} (hv : v ≠ 1#9) (c : CycleInput) : stAfter v c ≠ 1#9 := by
  obtain ⟨-, -, after⟩ | ⟨b, -, -, after⟩ | ⟨-, -, after⟩ := cycle_cases c
  · rw [after]; decide
  · have notStart := two_le_tableRead_next v b
    rw [after]
    exact BitVec.toNat_ne.2 (Nat.ne_of_gt notStart)
  · rwa [after]

/-- Settles O28: a clear leaves 0, a FEED leaves a state of one bit or more, and any other cycle holds the register. -/
theorem aliasStateIsNeverEntered : Obligations.AliasStateIsNeverEntered := by
  intro s t notAlias ht
  obtain ⟨c, hs, -⟩ := (step_eq_next_iff s t).1 ht
  rw [step_next_eq hs ht]
  exact stAfter_ne_alias notAlias c

/-! ### The fed history -/

/-- Settles O29: the register after the cycle codes the history after it. -/
theorem stepKeepsTheFedHistory : Obligations.StepKeepsTheFedHistory := by
  intro h s t c rest coded hs ht
  rw [step_next_eq hs ht]
  exact ⟨codesHistory_stAfter coded c, rfl⟩

/-- Settles O27: the reset state is the start state 0 with no cycle listed. -/
theorem resetStateIsEmpty : Obligations.ResetStateIsEmpty :=
  ⟨reset_st, outputsOf_of_st_zero reset_st, codesHistory_nil_of_start (by decide), by decide, reset_inputs⟩

/-! ### The ready flag -/

/-- After a FEED the register is ready exactly if its bit is the 8th or a later one since the last clear. -/
theorem readyFlag_stAfter_of_fed {h : List Bit} {v : StWord} (coded : codesHistory h v) {c : CycleInput}
    (noClear : isClearing c = false) (fed : (bitFed c).isSome = true) :
    readyFlag (stAfter v c) = decide (8 ≤ h.length + 1) := by
  obtain ⟨b, hb⟩ := Option.isSome_iff_exists.1 fed
  have after : historyAfter h c = h ++ [b] := by simp [historyAfter, noClear, hb]
  rw [readyFlag_of_codesHistory (codesHistory_stAfter coded c), after, List.length_append, List.length_singleton]

/-- Settles O30: the flag after a FEED counts the history, a terminal state is left by a clear only, a clear leaves 0, and
an idle cycle holds the register. -/
theorem readyRisesOnTheEighthBitAndFallsOnReset : Obligations.ReadyRisesOnTheEighthBitAndFallsOnReset := by
  have readyIff : ∀ s : State, readyO s = true ↔ isTerminal s.st = true := fun s => by
    rw [readyO, readyFlag_eq_decide, decide_eq_true_iff, isTerminal_iff]
  refine ⟨fun s => ⟨rfl, readyIff s⟩, fun s t c rest hs ht => ?_⟩
  obtain rfl := step_next_eq hs ht
  refine ⟨fun h coded noClear fed => readyFlag_stAfter_of_fed coded noClear fed, fun noClear ready => ?_,
    fun clears => readyO_of_st_zero (stAfter_of_clearing clears s.st), fun noClear notFed => ?_⟩
  · have held : stAfter s.st c = s.st := stAfter_of_terminal ((readyIff s).1 ready) noClear
    rw [held]
    exact ready
  · have held : stAfter s.st c = s.st := by simp [stAfter, noClear, notFed]
    rw [held]
    rfl

end Sys2Proof.Machine
end

section
/-! PROOFS. Command words among the numbers (30_encoding.md R70, R75), and the step as the command of its cycle
(10_state.md R38, 41_accumulator_ops.md R130). -/

namespace Sys2Proof

/-! ### Numbers as command words -/

theorem wordWellFormed_toNat (c : CmdWord) : wordWellFormed c.toNat = true := decide_eq_true c.isLt

theorem wordWellFormed_of_wide {w : Nat} (h : 4 ≤ w) : wordWellFormed w = false := decide_eq_false (Nat.not_lt.2 h)

/-- A command word is read off its number when at least its two bits are given. -/
theorem commandWordOf_toNat {nbits : Nat} (h : 2 ≤ nbits) (c : CmdWord) : commandWordOf nbits c.toNat = some c := by
  have whole : c.toNat % 2 ^ nbits = c.toNat :=
    Nat.mod_eq_of_lt (c.isLt.trans_le (Nat.pow_le_pow_right (by decide) h))
  simp [commandWordOf, whole, wordWellFormed_toNat]

/-- Settles O2: a command's word is below 4, so every decoder reads it whole, and `decode` inverts `encode`. -/
theorem commandsDecodeBackFromTheirWords : Obligations.CommandsDecodeBackFromTheirWords := by
  refine ⟨fun i _ => ⟨decode_encode i, ?_, fun nbits h => ?_⟩, encode_decode⟩
  · rw [decodeWord, if_pos (wordWellFormed_toNat _), BitVec.ofNat_toNat, BitVec.setWidth_eq, decode_encode]
  · rw [decodeTableWord, commandWordOf_toNat h, Option.map_some, decode_encode]

/-- Settles O3: the check for two wires fails, and giving all bits of the number cuts none off. -/
theorem widerNumbersAreNoCommand : Obligations.WiderNumbersAreNoCommand := by
  intro w wide
  have notWord := wordWellFormed_of_wide wide
  refine ⟨by simp [decodeWord, notWord], fun nbits given => ?_⟩
  simp [decodeTableWord, commandWordOf, Nat.mod_eq_of_lt given, notWord]

namespace Machine

/-! ### The frame of the commands -/

/-- Every command answers its own state with a new register value, and NOP with the old one. -/
theorem exec_eq_next_setSt (i : Instr) (s : State) :
    ∃ v, exec i s = .next (s.setSt v) ∧ (i = .nop → v = s.st) := by
  cases i with
  | nop => exact ⟨s.st, rfl, fun _ => rfl⟩
  | reset => exact ⟨0#9, rfl, nofun⟩
  | feed b => exact ⟨_, rfl, nofun⟩

/-- Settles O19: the one write of a command is that of the register. -/
theorem commandsChangeOnlyTheRegister : Obligations.CommandsChangeOnlyTheRegister := by
  intro i s t ht
  obtain ⟨v, run, nopHolds⟩ := exec_eq_next_setSt i s
  obtain rfl : t = s.setSt v := Host.Outcome.next.inj (ht.symm.trans run)
  exact ⟨rfl, rfl, nopHolds⟩

/-! ### The table as an argument -/

@[simp] theorem execFrom_nop (T : Table) (s : State) : execFrom T .nop s = .next s := rfl

@[simp] theorem execFrom_feed (T : Table) (b : Bit) (s : State) : execFrom T (.feed b) s = .next (feedFrom T b s) := rfl

/-- FEED over two tables answers the same exactly if the next states in the two cells at `{st, b}` are the same. -/
theorem execFrom_feed_eq_iff (T U : Table) (b : Bit) (s : State) :
    execFrom T (.feed b) s = execFrom U (.feed b) s ↔
      cellNext (T (tableAddress s.st b)) = cellNext (U (tableAddress s.st b)) := by
  rw [execFrom_feed, execFrom_feed, Host.Outcome.next.injEq]
  exact ⟨congrArg State.st, congrArg s.setSt⟩

/-- Settles O15: NOP and RESET answer without the table, and FEED by the next state in its cell. -/
theorem onlyFeedReadsTheTableAndOneCell : Obligations.OnlyFeedReadsTheTableAndOneCell :=
  ⟨fun T U s => ⟨(execFrom_nop T s).trans (execFrom_nop U s).symm, (execFrom_reset T s).trans (execFrom_reset U s).symm⟩,
    fun T U b s sameCell => (execFrom_feed_eq_iff T U b s).2 (congrArg cellNext sameCell),
    fun T U b s otherNext sameAnswer => otherNext ((execFrom_feed_eq_iff T U b s).1 sameAnswer),
    execFrom_transitionTable⟩

theorem stepFrom_of_rst (T : Table) (v : StWord) {c : CycleInput} (rest : List CycleInput) (hr : c.rst = true) :
    stepFrom T { st := v, inputs := c :: rest } = .next { st := 0#9, inputs := rest } :=
  (edgeWith_cons (execFrom T) v c rest).trans (if_pos hr)

theorem stepFrom_of_rst_low (T : Table) (v : StWord) {c : CycleInput} (rest : List CycleInput) (hr : c.rst = false) :
    stepFrom T { st := v, inputs := c :: rest } = execFrom T (decode c.cmd) { st := v, inputs := rest } := by
  rw [stepFrom, edgeWith_cons, hr, if_neg Bool.false_ne_true]

/-- Settles O56: `rst` decides between the clear and the command of the cycle, whose FEED reads the given table. -/
theorem stepTakesTheTableAsAnArgument : Obligations.StepTakesTheTableAsAnArgument := by
  refine ⟨fun T v c rest => ⟨stepFrom_of_rst T v rest, stepFrom_of_rst_low T v rest, fun b hr word => ?_⟩,
    stepFrom_transitionTable⟩
  have isFeed : decode c.cmd = .feed b := (decode_eq_iff_eq_encode c.cmd (.feed b)).2 word
  rw [stepFrom_of_rst_low T v rest hr, isFeed]
  rfl

/-! ### The step -/

theorem step_of_rst_low {s : State} {c : CycleInput} {rest : List CycleInput} (hs : s.inputs = c :: rest)
    (hr : c.rst = false) : step s = exec (decode c.cmd) { s with inputs := rest } := by
  obtain ⟨v, ins⟩ := s
  obtain rfl : ins = c :: rest := hs
  rw [← stepFrom_transitionTable, stepFrom_of_rst_low _ v rest hr, execFrom_transitionTable]

/-- Settles O22: with `rst` low the step is the command `cmd` decodes to, and a command's word decodes to it. -/
theorem stepRunsTheDecodedCommand : Obligations.StepRunsTheDecodedCommand := by
  intro s c rest hs hr
  refine ⟨step_of_rst_low hs hr, fun i word => ?_⟩
  rw [step_of_rst_low hs hr, word, decode_encode]

theorem step_of_no_input {s : State} (h : s.inputs = []) : step s = .refused .runEnded := by
  rw [step, edgeWith, (sampleInputs_none_iff s).2 h]

theorem exists_step_next {s : State} (h : s.inputs ≠ []) : ∃ t, step s = .next t := by
  obtain ⟨c, rest, hs⟩ := List.exists_cons_of_ne_nil h
  exact ⟨_, step_eq_stAfter hs⟩

/-- Settles O24: nothing is sampled from an empty list, and any cycle sampled has a register after it. -/
theorem stepStopsOnlyAtTheEndOfTheRun : Obligations.StepStopsOnlyAtTheEndOfTheRun :=
  fun _ => ⟨step_of_no_input, exists_step_next⟩

theorem step_ne_fault (s : State) (f : Fault) : step s ≠ .fault f := by
  by_cases ended : s.inputs = []
  · rw [step_of_no_input ended]; exact nofun
  · obtain ⟨t, ht⟩ := exists_step_next ended
    rw [ht]; exact nofun

/-- Settles O25: a step answers a next state or the end of the run, and a command always a next state. -/
theorem hardwareRaisesNoError : Obligations.HardwareRaisesNoError :=
  fun s f => ⟨step_ne_fault s f, fun i => exec_ne_fault i s f⟩

/-- Settles O26: placing the word of a command puts its cycle first. -/
theorem placedCommandRunsNext : Obligations.PlacedCommandRunsNext := by
  intro s i nbits h
  have placed : s.withFetchWord nbits (encode i).toNat = { st := s.st, inputs := cycleOf i :: s.inputs.tail } := by
    rw [State.withFetchWord, commandWordOf_toNat h]
    rfl
  rw [placed, step_of_command]

end Machine

end Sys2Proof
end

section
/-! PROOFS. The table by its closed form and over exact naturals (40_transition_table.md R105 to R109), where FEED settles
(20_memory.md R58), and the coding of the states (10_state.md R22). -/

namespace Sys2Proof.Machine

/-! ### The table -/

/-- Settles O11: the closed form on numbers and the closed form on bits are both the next state of the cell. -/
theorem tableHasTheClosedForm : Obligations.TableHasTheClosedForm := by
  intro s b
  constructor
  · have rows := closedFormNext_cases s.toNat b.toNat
    rw [tableRead_next_toNat]
    split_ifs <;> omega
  · exact (closedFormBits_eq_tableRead_next s b).symm

/-- The row rules over exact naturals: the byte is complete from 128 on, and the next state is the closed form. -/
theorem tableEntry_eq_closedForm (s b : Nat) : tableEntry s b = (decide (128 ≤ s), closedFormNext s b) := by
  have rows := closedFormNext_cases s b
  obtain start | ⟨h2, h255⟩ | terminal : s < 2 ∨ (2 ≤ s ∧ s ≤ 255) ∨ 256 ≤ s := by omega
  · have isStart : s < Config.startStates := start
    rw [tableEntry, if_pos isStart, decide_eq_false (by omega)]
    exact congrArg (Prod.mk false) (by omega)
  · rw [tableEntry_of_intermediate h2 h255]
    exact congrArg (Prod.mk _) (by omega)
  · obtain ⟨notStart, isTerminal⟩ := terminal_class terminal
    rw [tableEntry, if_neg notStart, if_neg isTerminal, decide_eq_true (by omega)]
    exact congrArg (Prod.mk true) (by omega)

theorem testBit_eight_of_lt {n : Nat} (h : n < 512) : n.testBit 8 = decide (256 ≤ n) := by
  rw [Nat.testBit_eq_decide_div_mod_eq, decide_eq_decide]
  omega

/-- Settles O12: every clause is a bound on the closed form, and below 512 narrowing loses nothing. -/
theorem tableEntriesStayInRange : Obligations.TableEntriesStayInRange := by
  intro s b hs hb
  have stored : tableRead (BitVec.ofNat 9 s) (BitVec.ofNat 1 b) =
      { ready := (tableEntry s b).1, next := BitVec.ofNat 9 (tableEntry s b).2 } := by
    rw [tableRead_eq_transition, transition, BitVec.toNat_ofNat, BitVec.toNat_ofNat, Nat.mod_eq_of_lt hs,
      Nat.mod_eq_of_lt hb]
  have inRange : closedFormNext s b < 512 ∧ 2 ≤ closedFormNext s b ∧ (256 ≤ closedFormNext s b ↔ 128 ≤ s)
      ∧ (256 ≤ s → closedFormNext s b = s) := by
    have rows := closedFormNext_cases s b
    omega
  obtain ⟨below, above, ready, selfLoop⟩ := inRange
  refine ⟨?_, ?_, ?_, ?_, stored⟩ <;> rw [tableEntry_eq_closedForm]
  · exact below
  · rw [testBit_eight_of_lt below, decide_eq_decide, ready]
  · exact selfLoop
  · exact above

/-! ### Where FEED settles -/

/-- The self-loops of the table are its terminal rows. -/
theorem tableRead_next_eq_self_iff (s : StWord) (b : Bit) : (tableRead s b).next = s ↔ 256 ≤ s.toNat := by
  have rows := closedFormNext_cases s.toNat b.toNat
  rw [← BitVec.toNat_inj, tableRead_next_toNat]
  omega

theorem feedBit_eq_self_iff (b : Bit) (s : State) : feedBit b s = s ↔ 256 ≤ s.st.toNat := by
  rw [← tableRead_next_eq_self_iff s.st b]
  exact ⟨congrArg State.st, congrArg s.setSt⟩

theorem terminal_tableRead_next_iff (s : StWord) (b : Bit) : 256 ≤ (tableRead s b).next.toNat ↔ 128 ≤ s.toNat := by
  have bit : b.toNat < 2 := b.isLt
  have rows := closedFormNext_cases s.toNat b.toNat
  rw [tableRead_next_toNat]
  omega

/-- Settles O20: a FEED holds exactly the terminal states, and it enters one exactly from 128 on. -/
theorem feedSettlesOnlyAtACompleteByte : Obligations.FeedSettlesOnlyAtACompleteByte := by
  intro s b
  refine ⟨feedBit b s, feedBit b (feedBit b s), exec_feed b s, exec_feed b _, feedBit_eq_self_iff b s, ?_⟩
  rw [feedBit_eq_self_iff, feedBit_st, terminal_tableRead_next_iff]

/-! ### The coding of a state -/

theorem completedByte_toNat_of_terminal {s : StWord} (h : 256 ≤ s.toNat) : (completedByte s).toNat = s.toNat - 256 := by
  have ready : readyFlag s = true := (readyFlag_eq_decide s).trans (decide_eq_true h)
  rw [completedByte_toNat_of_ready ready, decodeState_of_terminal h]

/-- Settles O32: each state is a start state, a marker above its buffer, or a terminal state, and decodes by its class. -/
theorem statesDecodeToCountAndBuffer : Obligations.StatesDecodeToCountAndBuffer := by
  refine ⟨decodeState_of_start (by decide), decodeState_of_start (by decide), fun k v hk hk7 hv => ?_,
    fun s h2 h255 => ?_, fun s terminal => ⟨decodeState_of_terminal terminal, ?_⟩⟩
  · obtain ⟨-, h255⟩ := marker_add_bounds hk hk7 hv
    refine decodeState_of_marker_add hk hk7 hv ?_
    rw [BitVec.toNat_ofNat, Nat.mod_eq_of_lt (by omega)]
  · obtain ⟨k, v, hk, hk7, hv, number⟩ := exists_eq_marker_add h2 h255
    have markerSet : (2 ^ k + v).testBit k = true := by
      rw [Nat.testBit_two_pow_add_eq, Nat.testBit_lt_two_pow hv, Bool.not_false]
    rw [decodeState_of_marker_add hk hk7 hv number, number]
    refine ⟨hk, hk7, markerSet, ?_, (Nat.add_sub_cancel_left ..).symm, ?_⟩
    · change 2 ^ k + v < 2 ^ (k + 1)
      omega
    · rw [Nat.add_mod_left, Nat.mod_eq_of_lt hv]
  · exact (completedByte_toNat_of_terminal terminal).symm

end Sys2Proof.Machine
end

section
/-! PROOFS. Runs as the steps of their cycles, in order, from any register value (10_state.md R25, R36;
20_memory.md R55, R60; 70_reset_and_hazards.md R181 to R186). -/

namespace Sys2Proof.Machine

/-! ### Composition and the host's run -/

/-- Settles O39: the outputs and bytes of the second part are those from where the first part ends. -/
theorem runsComposeInOrder : Obligations.RunsComposeInOrder := by
  intro cs ds s
  refine ⟨_, _, _, observeRun_eq_observation cs s, observeRun_eq_observation ds _, observeRun_eq_observation (cs ++ ds) s,
    ?_⟩
  rw [observation_final, observation_final, observation_final]
  exact ⟨observation_append_outputs cs ds s, observation_append_emitted cs ds s, List.foldl_append⟩

/-- One more step of the host's run is the step of the first listed cycle. -/
theorem coreRun_cons (k : Nat) (v : StWord) (c : CycleInput) (cs : List CycleInput) :
    Host.Core.run Sys2Proof.core (k + 1) ({ st := v, inputs := c :: cs } : State) =
      Host.Core.run Sys2Proof.core k ({ st := stAfter v c, inputs := cs } : State) := by
  have stepped : step { st := v, inputs := c :: cs } = .next { st := stAfter v c, inputs := cs } :=
    step_eq_stAfter rfl
  simp [Host.Core.run, Sys2Proof.core, stepped]

theorem coreRun_eq_foldl (cs : List CycleInput) (v : StWord) :
    Host.Core.run Sys2Proof.core cs.length ({ st := v, inputs := cs } : State) =
      .next ({ st := cs.foldl stAfter v, inputs := [] } : State) := by
  induction cs generalizing v with
  | nil => rfl
  | cons c cs ih => exact (coreRun_cons cs.length v c cs).trans (ih (stAfter v c))

theorem observation_outputs_length (cs : List CycleInput) (v : StWord) :
    (observation cs v).outputs.length = cs.length := by
  induction cs generalizing v with
  | nil => rfl
  | cons c cs ih => exact congrArg (· + 1) (ih (stAfter v c))

/-- What a cycle with the outputs `o` after it emits: the byte shown, if it fed a bit and the outputs are ready. -/
def emittedOf (p : CycleInput × Outputs) : Option Byte :=
  if (bitFed p.1).isSome && p.2.ready then p.2.byte else none

theorem emittedBy_eq_emittedOf (c : CycleInput) (t : State) : emittedBy c t = emittedOf (c, outputsOf t) := by
  rw [emittedBy, emittedOf, outputsOf_ready, outputsOf_byte]
  cases ready : readyO t with
  | true => simp
  | false => simp [byteO_of_not_ready ready]

/-- The emitted bytes are read off the cycles and the outputs after them. -/
theorem observation_emitted_eq_filterMap (cs : List CycleInput) (v : StWord) :
    (observation cs v).emitted = (cs.zip (observation cs v).outputs).filterMap emittedOf := by
  induction cs generalizing v with
  | nil => rfl
  | cons c cs ih =>
    rw [observation, Observation.after, emittedBy_eq_emittedOf, ih, List.zip_cons_cons, List.filterMap_cons]
    cases emittedOf (c, _) <;> rfl

/-- Settles O40: the host's run takes the same steps, and the observation puts one output pair after each. -/
theorem runIsTheStepsOfItsCycles : Obligations.RunIsTheStepsOfItsCycles := by
  intro cs s
  refine ⟨_, observeRun_eq_observation cs s, ?_, observation_outputs_length cs s, observation_emitted_eq_filterMap cs s⟩
  rw [observation_final]
  exact coreRun_eq_foldl cs s

/-! ### Runs that begin with a clear -/

theorem observation_eq_of_clearing {c : CycleInput} (h : isClearing c = true) (cs : List CycleInput) (u v : StWord) :
    observation (c :: cs) u = observation (c :: cs) v := by
  rw [observation, observation, stAfter_of_clearing h, stAfter_of_clearing h]

/-- Settles O42: the clear leaves 0 from any two values, the drawn ones among them. -/
theorem resetForgetsTheHistory : Obligations.ResetForgetsTheHistory := by
  intro c cs clears
  have same : ∀ u v, observeRun (c :: cs) u = observeRun (c :: cs) v := fun u v => by
    rw [observeRun_eq_observation, observeRun_eq_observation, observation_eq_of_clearing clears]
  exact ⟨same, fun k => ⟨same _ _, fun s => same _ _⟩⟩

theorem bitFed_of_clearing {c : CycleInput} (h : isClearing c = true) : bitFed c = none := by
  obtain ⟨-, notFed, -⟩ | ⟨b, noClear, -, -⟩ | ⟨noClear, -, -⟩ := cycle_cases c
  · exact notFed
  · simp [h] at noClear
  · simp [h] at noClear

/-- A clear at the end of a run emits nothing more and leaves 0. -/
theorem observation_concat_of_clearing {c : CycleInput} (h : isClearing c = true) (cs : List CycleInput) (v : StWord) :
    (observation (cs ++ [c]) v).emitted = (observation cs v).emitted ∧ (observation (cs ++ [c]) v).final = 0#9 := by
  constructor
  · rw [observation_concat_emitted, emittedBy_of_no_feed (bitFed_of_clearing h), Option.toList_none, List.append_nil]
  · rw [observation_final, foldl_stAfter_of_clearing h, List.foldl_nil]

/-! ### Partial and completed bytes -/

/-- A state of one to seven bits is its marker bit and its buffer (10_state.md R22). -/
theorem toNat_of_decodeState_partial {s : StWord} {k v : Nat} (hk : 1 ≤ k) (hk7 : k ≤ 7) (h : decodeState s = (k, v)) :
    s.toNat = 2 ^ k + v ∧ v < 2 ^ k := by
  obtain start | ⟨h2, h255⟩ | terminal := start_or_intermediate_or_terminal s
  · obtain ⟨rfl, -⟩ := Prod.ext_iff.1 ((decodeState_of_start start).symm.trans h)
    simp at hk
  · obtain ⟨m, w, hm, hm7, hw, number⟩ := exists_eq_marker_add h2 h255
    obtain ⟨rfl, rfl⟩ := Prod.ext_iff.1 ((decodeState_of_marker_add hm hm7 hw number).symm.trans h)
    exact ⟨number, hw⟩
  · obtain ⟨rfl, -⟩ := Prod.ext_iff.1 ((decodeState_of_terminal terminal).symm.trans h)
    simp at hk7

/-- Settles O37: the final register codes the one to seven bits fed, too few to emit, and a clear then leaves 0. -/
theorem partialByteIsHeldAndNeverEmitted : Obligations.PartialByteIsHeldAndNeverEmitted := by
  intro s cs start noClear atLeast1 atMost7
  have silent : (observation cs s).emitted = [] :=
    observation_emitted_of_short (codesHistory_nil_of_start start) noClear (by simpa using Nat.lt_succ_of_le atMost7)
  have coded : decodeState (cs.foldl stAfter s) = ((bitsFed cs).length, bitsValue (bitsFed cs)) := by
    rw [codesHistory_bitsFed start noClear, Nat.min_eq_left (by omega), List.take_of_length_le (by omega)]
  refine ⟨⟨_, observeRun_eq_observation cs s, silent, ?_⟩, fun c clears => ⟨_, observeRun_eq_observation (cs ++ [c]) s, ?_⟩⟩
  · rw [observation_final]
    exact toNat_of_decodeState_partial atLeast1 atMost7 coded
  · obtain ⟨emitted, final⟩ := observation_concat_of_clearing clears cs s
    exact ⟨emitted.trans silent, final⟩

/-- Settles O43: the NOPs show the terminal state they hold, and the RESET shows the cleared one. -/
theorem completedByteWaitsForItsReset : Obligations.CompletedByteWaitsForItsReset := by
  intro s n terminal
  have clears : isClearing (cycleOf .reset) = true := by simp
  have cycles : cyclesOf (idle n ++ [.reset]) = cyclesOf (idle n) ++ [cycleOf .reset] := cyclesOf_append _ _
  obtain ⟨emitted, final⟩ := observation_concat_of_clearing clears (cyclesOf (idle n)) s
  rw [cycles]
  refine ⟨_, observeRun_eq_observation _ s, emitted.trans (observation_idle_emitted n s), final, ?_⟩
  rw [observation_append_outputs, observation_idle_outputs n { st := s, inputs := [] }, outputsOf_of_terminal terminal]
  exact congrArg _ (observation_outputs_of_clearing (by simp) _)

/-- The driving loop emits the bytes in order, one PUTBYTE after the other, each from a start state. -/
theorem observation_putBytes (vs : List Byte) {s : StWord} (start : isStart s = true) :
    (observation (cyclesOf (vs.flatMap putByte)) s).emitted = vs
      ∧ isStart (observation (cyclesOf (vs.flatMap putByte)) s).final = true := by
  induction vs generalizing s with
  | nil => exact ⟨rfl, start⟩
  | cons v vs ih =>
    obtain ⟨emitted, final⟩ := observation_putByte start v
    rw [observation_final] at final
    obtain ⟨restEmitted, restFinal⟩ := ih (s := 0#9) (by decide)
    rw [observation_final] at restFinal
    rw [List.flatMap_cons, cyclesOf_append, observation_append_emitted, observation_final, List.foldl_append, emitted,
      final, restEmitted]
    exact ⟨rfl, restFinal⟩

/-- Settles O44: by induction on the bytes. -/
theorem drivingLoopEmitsEveryByteOnce : Obligations.DrivingLoopEmitsEveryByteOnce :=
  fun vs s start => ⟨_, observeRun_eq_observation _ s, observation_putBytes vs start⟩

/-! ### Runs from state 1, the second code of the empty accumulator -/

theorem observation_alias_cons_of_same {c : CycleInput} (h : stAfter 0#9 c = stAfter 1#9 c) (cs : List CycleInput) :
    observation (c :: cs) 0#9 = observation (c :: cs) 1#9 := by
  rw [observation, observation, h]

/-- From the start states 0 and 1 a run shows the same, and once a cycle fed or cleared it is the same run. -/
theorem observation_alias (cs : List CycleInput) :
    (observation cs 0#9).outputs = (observation cs 1#9).outputs
      ∧ (observation cs 0#9).emitted = (observation cs 1#9).emitted
      ∧ ((∃ c ∈ cs, isClearing c = true ∨ (bitFed c).isSome = true) →
        (observation cs 0#9).final = (observation cs 1#9).final) := by
  induction cs with
  | nil => exact ⟨rfl, rfl, fun ⟨c, hc, _⟩ => absurd hc List.not_mem_nil⟩
  | cons c cs ih =>
    obtain ⟨-, -, after⟩ | ⟨b, -, -, after⟩ | ⟨noClear, notFed, after⟩ := cycle_cases c
    · rw [observation_alias_cons_of_same (by rw [after, after])]
      exact ⟨rfl, rfl, fun _ => rfl⟩
    · have sameRow : tableRead 0#9 b = tableRead 1#9 b :=
        (tableRead_of_start (by decide) b).trans (tableRead_of_start (by decide) b).symm
      rw [observation_alias_cons_of_same (by rw [after, after, sameRow])]
      exact ⟨rfl, rfl, fun _ => rfl⟩
    · obtain ⟨outputs, emitted, final⟩ := ih
      have notReady : outputsOf { st := 0#9, inputs := [] } = outputsOf { st := 1#9, inputs := [] } := by decide
      simp only [observation, Observation.after, after, emittedBy_of_no_feed notFed]
      refine ⟨congrArg₂ List.cons notReady outputs, emitted, fun acts => final ?_⟩
      simpa [noClear, notFed] using acts

/-- Settles O35: the two runs show the same observation but for the register an idle run holds. -/
theorem aliasStartsShowTheSame : Obligations.AliasStartsShowTheSame :=
  fun cs => ⟨_, _, observeRun_eq_observation cs 0#9, observeRun_eq_observation cs 1#9, observation_alias cs⟩

end Sys2Proof.Machine
end

section
/-! PROOFS. The table-free shift register a run refines (40_transition_table.md R102 to R104), and the bits a dutiful
caller gets back (70_reset_and_hazards.md R187, R188). -/

namespace Sys2Proof.Machine

/-! ### Refinement of the shift register -/

theorem shifterOf_zero : shifterOf 0#9 = { count := 0, buffer := 0 } := by
  rw [shifterOf, decodeState_of_start (by decide)]

/-- Each cycle of the register is the same cycle of the shift register it encodes. -/
theorem shifterOf_stAfter (v : StWord) (c : CycleInput) : shifterOf (stAfter v c) = (shifterOf v).cycle c := by
  obtain ⟨clears, -, after⟩ | ⟨b, noClear, fed, after⟩ | ⟨noClear, notFed, after⟩ := cycle_cases c
  · simp [after, Shifter.cycle, clears, shifterOf_zero]
  · simp [after, Shifter.cycle, noClear, fed, shifterOf_tableRead_next]
  · simp [after, Shifter.cycle, noClear, notFed]

/-- The byte a cycle emits is the buffer of the full shift register after it. -/
theorem emittedBy_toNat (c : CycleInput) (t : State) :
    (emittedBy c t).toList.map BitVec.toNat =
      if (bitFed c).isSome && decide ((shifterOf t.st).count = 8) then [(shifterOf t.st).buffer] else [] := by
  have full : decide ((shifterOf t.st).count = 8) = readyO t := (readyFlag_eq_decide_bitCount t.st).symm
  rw [full, emittedBy]
  cases ready : readyO t with
  | false => simp [byteO_of_not_ready ready]
  | true =>
    have byte : (completedByte t.st).toNat = (shifterOf t.st).buffer := completedByte_toNat_of_ready ready
    rw [byteO_of_ready ready, Bool.and_true]
    split
    · exact congrArg (fun n => [n]) byte
    · rfl

theorem observation_refines_shifter (cs : List CycleInput) (v : StWord) :
    (observation cs v).emitted.map BitVec.toNat = (shifterOf v).reports cs
      ∧ shifterOf (observation cs v).final = (shifterOf v).after cs := by
  induction cs generalizing v with
  | nil => exact ⟨rfl, rfl⟩
  | cons c cs ih =>
    obtain ⟨emitted, final⟩ := ih (stAfter v c)
    rw [shifterOf_stAfter] at emitted final
    refine ⟨?_, final⟩
    rw [observation, Observation.after, List.map_append, emitted, emittedBy_toNat, shifterOf_stAfter]
    rfl

/-- Settles O46: by induction on the cycles, each of which is one cycle of the shift register. -/
theorem machineRefinesTheShiftRegister : Obligations.MachineRefinesTheShiftRegister :=
  fun cs s => ⟨_, observeRun_eq_observation cs s, observation_refines_shifter cs s⟩

/-! ### The bits a state holds -/

/-- The bits a shift register holds, oldest first. -/
def Shifter.bits (p : Shifter) : List Bit := bitsMsbFirst p.count p.buffer

theorem Shifter.bits_push {p : Shifter} (h : p.count < 8) (b : Bit) : (p.push b).bits = p.bits ++ [b] := by
  have bit : b.toNat < 2 := b.isLt
  have older : (2 * p.buffer + b.toNat) / 2 = p.buffer := by omega
  have newest : BitVec.ofNat 1 (2 * p.buffer + b.toNat) = b := by
    apply BitVec.eq_of_toNat_eq
    rw [BitVec.toNat_ofNat]
    omega
  rw [Shifter.push, if_pos h, Shifter.bits, bitsMsbFirst, older, newest, Shifter.bits]

theorem bitAt_eq_ofNat (v : Byte) (i : Nat) : bitAt v i = BitVec.ofNat 1 (v.toNat / 2 ^ i) := by
  apply BitVec.eq_of_toNat_eq
  rw [bitAt_toNat, BitVec.toNat_ofNat, Nat.pow_one]

theorem bitsOfByte_eq_bitsMsbFirst (v : Byte) : bitsOfByte v = bitsMsbFirst 8 v.toNat := by
  simp [bitsOfByte, bitsMsbFirst, bitAt_eq_ofNat, Nat.div_div_eq_div_mul]

theorem shifterOf_count_lt_of_not_ready {s : StWord} (h : readyFlag s = false) : (shifterOf s).count < 8 := by
  rw [readyFlag_eq_decide, decide_eq_false_iff_not] at h
  obtain start | ⟨h2, h255⟩ | terminal := start_or_intermediate_or_terminal s
  · rw [shifterOf, decodeState_of_start start]; decide
  · obtain ⟨k, v, hk, hk7, hv, number⟩ := exists_eq_marker_add h2 h255
    rw [shifterOf, decodeState_of_marker_add hk hk7 hv number]
    exact Nat.lt_succ_of_le hk7
  · exact absurd terminal h

theorem pendingBits_of_ready {s : StWord} (h : readyFlag s = true) : pendingBits s = [] := if_pos h

theorem pendingBits_of_not_ready {s : StWord} (h : readyFlag s = false) : pendingBits s = (shifterOf s).bits := by
  rw [pendingBits, h]; rfl

/-- The byte shown and the bits pending are together the bits held: all of them are on one side or the other. -/
theorem bits_shown_append_pending (t : State) :
    (byteO t).toList.flatMap bitsOfByte ++ pendingBits t.st = (shifterOf t.st).bits := by
  cases ready : readyO t with
  | false =>
    rw [byteO_of_not_ready ready]
    exact pendingBits_of_not_ready ready
  | true =>
    have full : (shifterOf t.st).count = 8 := of_decide_eq_true ((readyFlag_eq_decide_bitCount t.st).symm.trans ready)
    have byte : (completedByte t.st).toNat = (shifterOf t.st).buffer := completedByte_toNat_of_ready ready
    rw [byteO_of_ready ready, pendingBits_of_ready ready, Shifter.bits, full, ← byte, ← bitsOfByte_eq_bitsMsbFirst]
    simp

/-! ### The caller's duties -/

theorem keepsDuties_cons (c : CycleInput) (cs : List CycleInput) (v : StWord) :
    keepsDuties (c :: cs) v = (dutyAt c v && keepsDuties cs (stAfter v c)) := by
  have stepped : step { st := v, inputs := c :: cs } = .next { st := stAfter v c, inputs := cs } :=
    step_eq_stAfter rfl
  rw [keepsDuties, stepped]

/-- In one dutiful cycle the bits pending and the bit fed become the bits of the byte emitted and those pending after
it: a clear comes only when nothing is pending, and a FEED only when there is room. -/
theorem bits_conserved_of_dutyAt {c : CycleInput} {v : StWord} (duty : dutyAt c v = true) :
    (emittedBy c { st := stAfter v c, inputs := [] }).toList.flatMap bitsOfByte ++ pendingBits (stAfter v c) =
      pendingBits v ++ (bitFed c).toList := by
  obtain ⟨clears, notFed, after⟩ | ⟨b, noClear, fed, after⟩ | ⟨-, notFed, after⟩ := cycle_cases c
  · have ready : readyFlag v = true := by simpa [dutyAt, clears, notFed] using duty
    have emptied : pendingBits 0#9 = [] := by
      rw [pendingBits_of_not_ready (by decide), shifterOf_zero]; rfl
    rw [emittedBy_of_no_feed notFed, after, notFed, pendingBits_of_ready ready, emptied]
    rfl
  · have notReady : readyFlag v = false := by simpa [dutyAt, noClear, fed] using duty
    have emits : emittedBy c { st := stAfter v c, inputs := [] } = byteO { st := stAfter v c, inputs := [] } := by
      rw [emittedBy, fed]; rfl
    rw [emits, bits_shown_append_pending { st := stAfter v c, inputs := [] }, after, shifterOf_tableRead_next,
      Shifter.bits_push (shifterOf_count_lt_of_not_ready notReady), pendingBits_of_not_ready notReady, fed]
    rfl
  · rw [emittedBy_of_no_feed notFed, after, notFed, Option.toList_none, Option.toList_none, List.append_nil]
    rfl

theorem observation_bits_of_keepsDuties {cs : List CycleInput} {v : StWord} (h : keepsDuties cs v = true) :
    (observation cs v).emitted.flatMap bitsOfByte ++ pendingBits (observation cs v).final =
      pendingBits v ++ bitsFed cs := by
  induction cs generalizing v with
  | nil => exact (List.append_nil _).symm
  | cons c cs ih =>
    rw [keepsDuties_cons, Bool.and_eq_true] at h
    obtain ⟨duty, rest⟩ := h
    have fed : bitsFed (c :: cs) = (bitFed c).toList ++ bitsFed cs := by
      cases hc : bitFed c <;> simp [bitsFed, hc]
    rw [observation, Observation.after, List.flatMap_append, List.append_assoc, ih rest, ← List.append_assoc,
      bits_conserved_of_dutyAt duty, fed, List.append_assoc]

/-- Settles O45: by induction on the cycles, each of which conserves the bits. -/
theorem dutifulCallerLosesNoBit : Obligations.DutifulCallerLosesNoBit :=
  fun cs s duties => ⟨_, observeRun_eq_observation cs s, observation_bits_of_keepsDuties duties⟩

end Sys2Proof.Machine
end

section
/-! PROOFS. The software calls and their fault record (41_accumulator_ops.md R134, R135; 60_exceptions.md R162, R165). -/

namespace Sys2Proof.Machine

/-! ### What a call can do -/

theorem feedTxn_of_invalidState {st v : Nat} (hst : 512 ≤ st) (hv : v < 2) :
    feedTxn st v = .error (.invalidState st) := by
  have outOfRange : Config.stateCount ≤ st := hst
  rw [feedTxn, if_neg (Nat.not_le.2 hv), if_pos outOfRange]

/-- From the states of the hardware `feed(v)` raises InvalidBit or goes to a state of the hardware. -/
theorem feedTxn_of_hardware_state {st : Nat} (v : Nat) (hst : st < 512) :
    feedTxn st v = .error (.invalidBit v) ∨ ∃ m, feedTxn st v = .ok m ∧ m < 512 := by
  obtain noBit | bit : 2 ≤ v ∨ v < 2 := le_or_gt 2 v
  · exact .inl (feedTxn_of_not_bit st noBit)
  · exact .inr ⟨_, feedTxn_of_bit bit hst, (feedBit (BitVec.ofNat 1 v) (hardwareState st)).st.isLt⟩

/-- Once a fatal fault is recorded every call raises it again and changes nothing. -/
theorem txnCall_of_fatal {t : TxnState} {f : Fault} (h : t.faults.find? Fault.isFatal = some f) (c : TxnCall) :
    txnCall t c = (t, .raised f) := by
  simp only [txnCall, h]

theorem find?_isFatal_eq_none {fs : List Fault} (h : ∀ f ∈ fs, f.isFatal = false) : fs.find? Fault.isFatal = none :=
  List.find?_eq_none.2 fun f hf => Bool.eq_false_iff.1 (h f hf)

theorem txnCall_reset {t : TxnState} (h : t.faults.find? Fault.isFatal = none) :
    txnCall t .reset = ({ t with st := 0 }, .nothing) := by
  rw [txnCall, h]
  rfl

theorem txnCall_feed_of_ok {t : TxnState} (h : t.faults.find? Fault.isFatal = none) {v n : Nat}
    (fed : feedTxn t.st v = .ok n) :
    txnCall t (.feed v) = ({ t with st := n }, .fed (outputsOf (hardwareState n))) := by
  simp only [txnCall, h, fed]

theorem txnCall_feed_of_error {t : TxnState} (h : t.faults.find? Fault.isFatal = none) {v : Nat} {f : Fault}
    (raised : feedTxn t.st v = .error f) :
    txnCall t (.feed v) = ({ t with faults := t.faults ++ [f] }, .raised f) := by
  simp only [txnCall, h, raised, TxnState.raise]

/-! ### The fault record -/

theorem faults_prefix_txnCall (t : TxnState) (c : TxnCall) : t.faults <+: (txnCall t c).1.faults := by
  cases fatal : t.faults.find? Fault.isFatal with
  | some f => rw [txnCall_of_fatal fatal]
  | none =>
    cases c with
    | reset => rw [txnCall_reset fatal]
    | feed v =>
      cases fed : feedTxn t.st v with
      | ok n => rw [txnCall_feed_of_ok fatal fed]
      | error f =>
        rw [txnCall_feed_of_error fatal fed]
        exact List.prefix_append _ _

/-- Settles O50: each call keeps the record as the first of the new one. -/
theorem faultRecordIsNeverCleared : Obligations.FaultRecordIsNeverCleared := by
  intro calls
  induction calls with
  | nil => exact fun t => List.prefix_rfl
  | cons c cs ih => exact fun t => (faults_prefix_txnCall t c).trans (ih _)

theorem txnCalls_of_invalidState_recorded {t : TxnState} {s : Nat} (h : Fault.invalidState s ∈ t.faults)
    (calls : List TxnCall) : txnCalls calls t = t := by
  obtain ⟨f, fatal⟩ : ∃ f, t.faults.find? Fault.isFatal = some f :=
    Option.isSome_iff_exists.1 (List.find?_isSome.2 ⟨_, h, rfl⟩)
  induction calls with
  | nil => rfl
  | cons c cs ih => rwa [txnCalls, txnCall_of_fatal fatal]

/-- Settles O48: the answer of `feed` in each range of states, the record that no call leaves, and a hardware that never
faults. -/
theorem invalidStateIsRaisedAndNeverLeft : Obligations.InvalidStateIsRaisedAndNeverLeft := by
  refine ⟨fun s v hs hv => ⟨feedTxn_of_invalidState hs hv, rfl⟩, fun s v n hs => ?_,
    fun t v noFatal ht hv => txnCall_feed_of_error (find?_isFatal_eq_none noFatal) (feedTxn_of_invalidState ht hv),
    fun t calls s recorded => txnCalls_of_invalidState_recorded recorded calls,
    fun s i n => ⟨exec_ne_fault i s _, step_ne_fault s _⟩⟩
  obtain raised | ⟨m, fed, below⟩ := feedTxn_of_hardware_state v hs
  · rw [raised]
    exact ⟨nofun, nofun⟩
  · rw [fed]
    refine ⟨nofun, fun m' same => ?_⟩
    obtain rfl : m = m' := Except.ok.inj same
    exact below

/-! ### A call as one cycle -/

/-- The outputs depend on the register alone, so a hardware state read back from its number shows the same. -/
theorem outputsOf_hardwareState_toNat (u : State) : outputsOf (hardwareState u.st.toNat) = outputsOf u := by
  rw [hardwareState, BitVec.ofNat_toNat, BitVec.setWidth_eq]
  rfl

/-- The word `01` and the reset input both clear (30_encoding.md R72, 70_reset_and_hazards.md R180). -/
theorem isClearing_of_reset_word_or_rst {c : CycleInput} (h : c.cmd = 0b01#2 ∨ c.rst = true) : isClearing c = true := by
  obtain word | rst := h
  · have reset : decode c.cmd = .reset := (decode_eq_iff_eq_encode c.cmd .reset).2 word
    simp [isClearing, reset]
  · exact isClearing_of_rst rst

/-- Settles O51: `feed(v)` is the FEED cycle of `v` when `v` is a bit, and `reset()` is a cycle that clears. -/
theorem softwareCallsAreOneCycle : Obligations.SoftwareCallsAreOneCycle := by
  refine ⟨fun t noFatal ht => ?_, rfl, rfl⟩
  have noStop : t.faults.find? Fault.isFatal = none := find?_isFatal_eq_none noFatal
  refine ⟨fun v hv => ⟨feedBit (BitVec.ofNat 1 v) (hardwareState t.st),
      step_of_command (BitVec.ofNat 9 t.st) (.feed (BitVec.ofNat 1 v)) [], ?_, byteO_of_not_ready⟩,
    fun v hv => txnCall_feed_of_error noStop (feedTxn_of_not_bit t.st hv),
    fun c clears => ⟨_, step_eq_stAfter rfl, ?_⟩⟩
  · rw [txnCall_feed_of_ok noStop (feedTxn_of_bit hv ht), outputsOf_hardwareState_toNat]
    rfl
  · rw [stAfter_of_clearing (isClearing_of_reset_word_or_rst clears), txnCall_reset noStop]
    rfl

end Sys2Proof.Machine
end

section
/-! PROOFS. Systems of many instances (20_memory.md R62, R64; 60_exceptions.md R173). -/

namespace Sys2Proof.Machine

/-! ### Masters -/

/-- A number is found to repeat only if it stands twice. -/
theorem two_le_count_of_firstRepeat {l : List Nat} {n : Nat} (h : firstRepeat l = some n) : 2 ≤ l.count n := by
  induction l with
  | nil => simp [firstRepeat] at h
  | cons m ms ih =>
    rw [firstRepeat] at h
    by_cases again : m ∈ ms
    · rw [if_pos again, Option.some.injEq] at h
      subst h
      have later : 0 < ms.count m := List.count_pos_iff.2 again
      rw [List.count_cons_self]
      exact Nat.succ_lt_succ later
    · rw [if_neg again] at h
      exact (ih h).trans (List.count_le_count_cons)

theorem firstRepeat_eq_none_iff (l : List Nat) : firstRepeat l = none ↔ l.Nodup := by
  induction l with
  | nil => simp [firstRepeat]
  | cons m ms ih =>
    rw [firstRepeat, List.nodup_cons, ← ih]
    by_cases again : m ∈ ms <;> simp [again]

theorem System.step_of_refusal {nInst : Nat} {y : System} {r : Refusal} (h : y.refusal nInst = some r) :
    System.step nInst y = .refused r := by
  rw [System.step, System.stepFrom, h]

/-- Settles O55: the three checks in their order, the last naming a number that stands twice. -/
theorem twoMastersOnOneInstanceAreRefused : Obligations.TwoMastersOnOneInstanceAreRefused := by
  refine ⟨fun nInst y atLeastOne count shared => ?_, fun y => System.step_of_refusal (if_pos rfl),
    fun nInst y atLeastOne otherCount => System.step_of_refusal ?_⟩
  · obtain ⟨i, repeats⟩ : ∃ i, firstRepeat y.masters = some i :=
      Option.ne_none_iff_exists'.1 (mt (firstRepeat_eq_none_iff y.masters).1 shared)
    refine ⟨i, System.step_of_refusal ?_, two_le_count_of_firstRepeat repeats⟩
    simp [System.refusal, Nat.ne_of_gt atLeastOne, count, repeats]
  · simp [System.refusal, Nat.ne_of_gt atLeastOne, otherCount]

/-! ### The common edge -/

/-- All instances step exactly if each of them does, place by place. -/
theorem stepAllFrom_eq_next_iff_forall₂ (T : Table) (ss ts : List State) :
    stepAllFrom T ss = .next ts ↔ List.Forall₂ (fun s t => stepFrom T s = .next t) ss ts := by
  induction ss generalizing ts with
  | nil => simp [stepAllFrom, eq_comm]
  | cons s ss ih =>
    cases ts with
    | nil => cases hs : stepFrom T s <;> cases ha : stepAllFrom T ss <;> simp [stepAllFrom, hs, ha]
    | cons t ts => rw [stepAllFrom_cons_eq_next_iff, List.forall₂_cons, ih]

/-- A system's step, when it answers: nothing was refused, and all instances took their own steps. -/
theorem System.step_eq_next_iff (nInst : Nat) (y z : System) :
    System.step nInst y = .next z ↔
      (nInst ≠ 0 ∧ y.insts.length = nInst ∧ y.masters.Nodup)
        ∧ List.Forall₂ (fun s t => Sys2Proof.Machine.step s = .next t) y.insts z.insts ∧ z.masters = y.masters := by
  simp only [System.step, System.stepFrom_eq_next_iff, System.refusal_eq_none_iff, firstRepeat_eq_none_iff,
    stepAllFrom_eq_next_iff_forall₂, stepFrom_transitionTable]

/-- Settles O52: the edge of the system is an edge of all its instances, place by place. -/
theorem instancesStepIndependently : Obligations.InstancesStepIndependently := by
  intro nInst y z hz
  obtain ⟨⟨nonzero, count, -⟩, edges, masters⟩ := (System.step_eq_next_iff nInst y z).1 hz
  refine ⟨masters, count, edges.length_eq.symm.trans count, Nat.one_le_iff_ne_zero.2 nonzero, fun i s hs => ?_⟩
  obtain ⟨inOld, rfl⟩ := List.getElem?_eq_some_iff.1 hs
  have inNew : i < z.insts.length := edges.length_eq ▸ inOld
  exact ⟨z.insts[i], edges.get inOld inNew, List.getElem?_eq_getElem inNew⟩

theorem exists_forall₂_step {ss : List State} (h : ∀ s ∈ ss, s.inputs ≠ []) :
    ∃ ts, List.Forall₂ (fun s t => step s = .next t) ss ts := by
  induction ss with
  | nil => exact ⟨[], .nil⟩
  | cons s ss ih =>
    obtain ⟨hs, hss⟩ := List.forall_mem_cons.1 h
    obtain ⟨t, ht⟩ := exists_step_next hs
    obtain ⟨ts, edges⟩ := ih hss
    exact ⟨t :: ts, .cons ht edges⟩

/-- Settles O54: no check refuses the system, and all its instances have a step to take. -/
theorem wellDrivenSystemsStep : Obligations.WellDrivenSystemsStep := by
  intro nInst y atLeastOne count oneMaster driven
  obtain ⟨ts, edges⟩ := exists_forall₂_step driven
  exact ⟨{ y with insts := ts },
    (System.step_eq_next_iff nInst y _).2 ⟨⟨Nat.one_le_iff_ne_zero.1 atLeastOne, count, oneMaster⟩, edges, rfl⟩⟩

/-! ### Many edges -/

theorem getElem?_of_forall₂_step {ss ts : List State} (h : List.Forall₂ (fun s t => step s = .next t) ss ts) (i : Nat) :
    ts[i]? = ss[i]?.bind fun s => nextOf (step s) := by
  induction h generalizing i with
  | nil => rfl
  | cons stepped _ ih =>
    cases i with
    | zero => simp [stepped, nextOf]
    | succ i => simpa using ih i

/-- What stands at a place after an edge is the step of what stood there before, and of nothing else. -/
theorem System.getElem?_insts_of_step {nInst : Nat} {y z : System} (h : System.step nInst y = .next z) (i : Nat) :
    z.insts[i]? = y.insts[i]?.bind fun s => nextOf (Sys2Proof.Machine.step s) := by
  obtain ⟨-, edges, -⟩ := (System.step_eq_next_iff nInst y z).1 h
  exact getElem?_of_forall₂_step edges i

theorem System.run_succ_eq_next_iff (nInst k : Nat) (y z : System) :
    System.run nInst (k + 1) y = .next z ↔ ∃ w, System.step nInst y = .next w ∧ System.run nInst k w = .next z := by
  cases hs : System.step nInst y <;> simp [System.run, hs]

/-- Settles O53: by induction on the edges, each of which takes equal instances to equal ones. -/
theorem instanceLearnsNothingOfOthers : Obligations.InstanceLearnsNothingOfOthers := by
  intro k nInst nInst' y y' z z' i j hz hz' same
  induction k generalizing y y' with
  | zero =>
    obtain rfl : y = z := Host.Outcome.next.inj hz
    obtain rfl : y' = z' := Host.Outcome.next.inj hz'
    exact same
  | succ k ih =>
    obtain ⟨w, edge, rest⟩ := (System.run_succ_eq_next_iff nInst k y z).1 hz
    obtain ⟨w', edge', rest'⟩ := (System.run_succ_eq_next_iff nInst' k y' z').1 hz'
    refine ih w w' rest rest' ?_
    rw [System.getElem?_insts_of_step edge, System.getElem?_insts_of_step edge', same]

end Sys2Proof.Machine
end

section
/-! PROOFS. The words of a text, the written words of a program, and the assembler's lines (30_encoding.md R79, R81). -/

namespace Sys2Proof.Machine

/-! ### Pieces and words of a text -/

theorem pieces_of_no_separator {p : Char → Bool} {l : List Char} (h : ∀ c ∈ l, p c = false) : pieces p l = [l] := by
  induction l with
  | nil => rfl
  | cons c cs ih =>
    obtain ⟨hc, hcs⟩ := List.forall_mem_cons.1 h
    simp [pieces, hc, ih hcs]

/-- The first separator ends the first piece. -/
theorem pieces_append_separator {p : Char → Bool} {l : List Char} (h : ∀ c ∈ l, p c = false) {sep : Char}
    (hsep : p sep = true) (r : List Char) : pieces p (l ++ sep :: r) = l :: pieces p r := by
  induction l with
  | nil => simp [pieces, hsep]
  | cons c cs ih =>
    obtain ⟨hc, hcs⟩ := List.forall_mem_cons.1 h
    simp [pieces, hc, ih hcs]

theorem tokens_of_word {w : List Char} (nonempty : w ≠ []) (h : ∀ c ∈ w, isBlank c = false) : tokens w = [w] := by
  simp [tokens, pieces_of_no_separator h, nonempty]

theorem tokens_append_space {w : List Char} (nonempty : w ≠ []) (h : ∀ c ∈ w, isBlank c = false) (r : List Char) :
    tokens (w ++ ' ' :: r) = w :: tokens r := by
  simp [tokens, pieces_append_separator h (sep := ' ') rfl, nonempty]

/-! ### Programs as written words -/

theorem programNotation_cons_cons (i j : Instr) (is : List Instr) :
    programNotation (i :: j :: is) = wordChars (encode i) ++ ' ' :: programNotation (j :: is) := rfl

theorem programNotation_eq_intercalate (p : List Instr) :
    programNotation p = List.intercalate [' '] (p.map fun i => wordChars (encode i)) := by
  induction p with
  | nil => rfl
  | cons i is ih =>
    cases is with
    | nil => rfl
    | cons j js =>
      rw [programNotation_cons_cons, ih]
      simp [List.intercalate_cons_cons]

theorem isBlank_bitChar (b : Bool) : isBlank (bitChar b) = false := by cases b <;> rfl

theorem wordChars_not_blank (c : CmdWord) : wordChars c ≠ [] ∧ ∀ x ∈ wordChars c, isBlank x = false := by
  simp [wordChars, isBlank_bitChar]

/-- The words of a written program are those of its commands. -/
theorem tokens_programNotation (p : List Instr) :
    tokens (programNotation p) = p.map fun i => wordChars (encode i) := by
  induction p with
  | nil => rfl
  | cons i is ih =>
    obtain ⟨nonempty, noBlank⟩ := wordChars_not_blank (encode i)
    cases is with
    | nil => exact tokens_of_word nonempty noBlank
    | cons j js => rw [programNotation_cons_cons, tokens_append_space nonempty noBlank, ih]; rfl

theorem readWord_wordChars (c : CmdWord) : readWord (wordChars c) = some c := by revert c; decide

theorem readWords_map_wordChars (p : List Instr) : readWords (p.map fun i => wordChars (encode i)) = some p := by
  induction p with
  | nil => rfl
  | cons i is ih => simp [readWords, readWord_wordChars, ih]

/-- Settles O4: the written program splits into its words at the spaces, and each word reads back to its command. -/
theorem programNotationReadsBack : Obligations.ProgramNotationReadsBack := by
  refine ⟨fun p => ⟨programNotation_eq_intercalate p, ?_⟩, by decide⟩
  rw [readNotation, tokens_programNotation, readWords_map_wordChars]

/-! ### The assembler's lines -/

theorem stripComment_of_no_comment {l : List Char} (h : ∀ c ∈ l, c ≠ ';') : stripComment l = l :=
  List.takeWhile_eq_self_iff.2 fun c hc => bne_iff_ne.2 (h c hc)

theorem stripComment_append_comment {l : List Char} (h : ∀ c ∈ l, c ≠ ';') (r : List Char) :
    stripComment (l ++ ';' :: r) = l := by
  rw [stripComment, List.takeWhile_append_of_pos fun c hc => bne_iff_ne.2 (h c hc), List.takeWhile_cons_of_neg (by simp),
    List.append_nil]

theorem assembleLine_append_comment {l : List Char} (h : ∀ c ∈ l, c ≠ ';') (r : List Char) :
    assembleLine (l ++ ';' :: r) = assembleLine l := by
  rw [assembleLine, assembleLine, stripComment_append_comment h, stripComment_of_no_comment h]

theorem assembleLine_of_error {l : List Char} {ts : List (List Char)} {e : AsmError} (noComment : ∀ c ∈ l, c ≠ ';')
    (words : tokens l = ts) (refused : parseTokens ts = .error e) : assembleLine l = .error e := by
  rw [assembleLine, stripComment_of_no_comment noComment, words, refused]

/-- An operand without separators or comment sign has no blank in it. -/
theorem not_blank_of_plain {l : List Char} (h : ∀ c ∈ l, c ≠ ' ' ∧ c ≠ '\t' ∧ c ≠ ';') :
    ∀ c ∈ l, isBlank c = false := by
  intro c hc
  obtain ⟨notSpace, notTab, -⟩ := h c hc
  simp [isBlank, notSpace, notTab]

/-- The words of a line that begins with FEED are FEED and the words after it. -/
theorem tokens_feed_append (r : List Char) :
    tokens (['F', 'E', 'E', 'D', ' '] ++ r) = ['F', 'E', 'E', 'D'] :: tokens r :=
  tokens_append_space (w := ['F', 'E', 'E', 'D']) (by simp) (by simp [isBlank]) r

theorem parseTokens_feed_of_not_digit {x : List Char} (h0 : x ≠ ['0']) (h1 : x ≠ ['1']) :
    parseTokens [['F', 'E', 'E', 'D'], x] = .error (.badBit x) := by
  simp [parseTokens, h0, h1]

theorem assemble_append_line {l r : List Char} {is js : List Instr} (oneLine : ∀ c ∈ l, c ≠ '\n')
    (first : assembleLine l = .ok is) (others : assemble r = .ok js) : assemble (l ++ '\n' :: r) = .ok (is ++ js) := by
  rw [assemble] at others ⊢
  rw [pieces_append_separator (fun c hc => beq_eq_false_iff_ne.2 (oneLine c hc)) (beq_self_eq_true '\n')]
  simp [assembleLines, first, others]

/-- Settles O5: the four texts evaluate, and each general clause follows from the words of its line. -/
theorem assemblerReadsTheCommandLines : Obligations.AssemblerReadsTheCommandLines := by
  refine ⟨by decide, by decide, by decide, by decide, fun x nonempty plain not0 not1 => ?_, by decide,
    fun x y xNonempty yNonempty plain => ?_, fun l r noComment => assembleLine_append_comment noComment r,
    fun l r is js oneLine => assemble_append_line oneLine⟩
  · have words : tokens (['F', 'E', 'E', 'D', ' '] ++ x) = [['F', 'E', 'E', 'D'], x] := by
      rw [tokens_feed_append, tokens_of_word nonempty (not_blank_of_plain plain)]
    have noComment : ∀ c ∈ x, c ≠ ';' := fun c hc => (plain c hc).2.2
    exact assembleLine_of_error (by simpa using noComment) words (parseTokens_feed_of_not_digit not0 not1)
  · obtain ⟨xPlain, yPlain⟩ := List.forall_mem_append.1 plain
    have words : tokens (['F', 'E', 'E', 'D', ' '] ++ x ++ ' ' :: y) = [['F', 'E', 'E', 'D'], x, y] := by
      rw [List.append_assoc, tokens_feed_append, tokens_append_space xNonempty (not_blank_of_plain xPlain),
        tokens_of_word yNonempty (not_blank_of_plain yPlain)]
    have noComment : ∀ c ∈ x ++ y, c ≠ ';' := fun c hc => (plain c hc).2.2
    exact assembleLine_of_error (by simpa [or_imp, forall_and] using noComment) words rfl

end Sys2Proof.Machine
end
